-- ==== Sys2Proof/Word.lean ====
section
/-! DEFINITION. The byte, the word and the frame (00_scope.md R6, 30_encoding.md R50). -/

namespace Sys2Proof

/-- R6: "A *byte* is an unsigned integer 0 to 255, 8 bits." -/
abbrev Byte := BitVec 8

/-- R4 `RC_BITS`: width of one round constant. It stands here because the word type is made from it; the other
parameters of R4 are in Config.lean. -/
abbrev Config.rcBits : Nat := 32

/-- R6: "A *word* is an unsigned integer 0 to 2^32 - 1, 32 bits; only round constants are words." -/
abbrev Word := BitVec Config.rcBits

/-- R50: "a frame is a finite sequence of bytes". -/
abbrev Frame := List Byte

end Sys2Proof
end

