-- ==== Sys2Proof/Config.lean ====
section
/-! DEFINITION. The fixed parameters (00_scope.md R4, R5), the index spaces made from them, the open parts of the
key schedule (40_keyschedule.md R72) and the free values. An `opaque` constant has no value a proof can see. -/

namespace Sys2Proof

namespace Config

/-- R4 `BLOCK_BYTES`: bytes in a block; lanes of the working register. -/
abbrev blockBytes : Nat := 16
/-- R4 `KEY_BYTES`: bytes in a raw key, in `PK` and in `SK`. -/
abbrev keyBytes : Nat := 32
/-- R4 `ROUNDS`: rounds, numbered 0 to 15; entries of `RC`. -/
abbrev rounds : Nat := 16
/-- R4 `SK_MASK`: `SK[i] = PK[i] XOR 0x36`. -/
abbrev skMask : Byte := 0x36
/-- R4 `SBOX_SIZE`: entries of `SBOX` and `ISBOX`. -/
abbrev sboxSize : Nat := 256
/-- R4 `PT_SIZE`: entries of `PT` and `IPT`. -/
abbrev ptSize : Nat := 16
/-- R4 `KEY_INDEX_MOD`: the `mod 32` in `PK[i mod 32]`, `SK[i mod 32]`. -/
abbrev keyIndexMod : Nat := 32
/-- R4 `SHIFT_MOD`: the `mod 32` in `roundConstant >> (i mod 32)`. -/
abbrev shiftMod : Nat := 32
/-- R4 `MIX_MASK`: the mask in the mix step. -/
abbrev mixMask : Word := 0xFF
/-- R4 `PAD_BLOCK`: padding modulus of the host Codec. -/
abbrev padBlock : Nat := 16
/-- R5 `LEN_BITS` = 16 (decision D3): a payload has at most 65535 bytes (R52). -/
abbrev maxPayload : Nat := 65535

end Config

/-! The index types, made from the parameters above. -/

/-- A block: exactly 16 bytes (`BLOCK_BYTES`), indices 0 to 15 (R7); also the lanes of `ST` and `TMP` (R23, R24). -/
abbrev Block := Vector Byte Config.blockBytes
/-- A key, and the tables `PK` and `SK`: 32 bytes (`KEY_BYTES`; R11, R12). -/
abbrev KeyTable := Vector Byte Config.keyBytes
/-- The tables `SBOX` and `ISBOX`: 256 bytes (`SBOX_SIZE`; R13, R14). -/
abbrev ByteTable := Vector Byte Config.sboxSize
/-- A lane number, and an entry of `PT` and `IPT`: 0 to 15 (R15, R23). -/
abbrev Lane := Fin Config.blockBytes
/-- The tables `PT` and `IPT`: 16 lane numbers (`PT_SIZE`; R15, R16). -/
abbrev LaneTable := Vector Lane Config.ptSize
/-- A round number `rnd`: 0 to 15 (`ROUNDS`; R26). -/
abbrev Round := Fin Config.rounds
/-- The table `RC`: 16 words (`ROUNDS`; R17). -/
abbrev RoundTable := Vector Word Config.rounds

/-- The three parts of `KS` that the document leaves open (R72, D10). Seeds and generator states are coded as
natural numbers, so any width and any countable state space is allowed (DESIGN CHOICE, log entry 2). A shuffle
draws some number of outputs from the generator and, from them, makes a list of swaps of positions: every
rearrangement of `n` entries is some list of swaps, so R76's open points (the loop direction, how an index is
drawn, how many outputs a swap consumes) stay open (DESIGN CHOICE, log entry 3). -/
structure KeyScheduleParts where
  /-- `Hash : Bytes32 -> Seed` (R72, R75). -/
  hash : KeyTable → Nat
  /-- `PRNG.init(seed) -> g` (R72). -/
  init : Nat → Nat
  /-- `PRNG.next32(g) -> (word, g')` (R72). -/
  next32 : Nat → Word × Nat
  /-- How many outputs a shuffle of `n` entries draws when it starts at generator state `g`. -/
  shuffleDraws : (n : Nat) → Nat → Nat
  /-- The swaps a shuffle of `n` entries makes of the outputs drawn, first swap first. -/
  shuffleSwaps : (n : Nat) → List Word → List (Fin n × Fin n)
  deriving Inhabited

namespace Config

/-- The device's own `Hash`, `PRNG` and `Shuffle`: OPEN (R72, D10, U1). No proof can see them. -/
opaque keyScheduleParts : KeyScheduleParts

/-- R30, U2, U7: what `PK` holds after the `n`-th reset: unspecified, a free value (log entry 1). -/
opaque resetPk : Nat → KeyTable
/-- R30, U2, U7: what `SK` holds after the `n`-th reset: a free value (log entry 1). -/
opaque resetSk : Nat → KeyTable
/-- R30, U2, U7: what `SBOX` holds after the `n`-th reset: a free value (log entry 1). -/
opaque resetSbox : Nat → ByteTable
/-- R30, U2, U7: what `ISBOX` holds after the `n`-th reset: a free value (log entry 1). -/
opaque resetIsbox : Nat → ByteTable
/-- R30, U2, U7: what `PT` holds after the `n`-th reset: a free value (log entry 1). -/
opaque resetPt : Nat → LaneTable
/-- R30, U2, U7: what `IPT` holds after the `n`-th reset: a free value (log entry 1). -/
opaque resetIpt : Nat → LaneTable
/-- R30, U2, U7: what `RC` holds after the `n`-th reset: a free value (log entry 1). -/
opaque resetRc : Nat → RoundTable
/-- R24: what a lane of `TMP` holds before a Permute writes it: a free value (log entry 4). A bijective `PT`
writes every lane (R94), so it never reaches a result. -/
opaque tmpBefore : Lane → Byte

end Config

end Sys2Proof
end

