-- ==== Sys2Proof/Syntax.lean ====
section
/-! DEFINITION. The instructions: the three commands of spec/opcode_table.json (30_encoding.md R57). A command is a
pair `(opc, payload)` (R54); a payload of the wrong length is still that command (R57: "The opcode alone selects the
command"), so the payload is a byte sequence of any length. -/

namespace Sys2Proof

/-- One constructor per row of spec/opcode_table.json. -/
inductive Instr where
  /-- SETKEY, `OPC = 0x01` (R70): the payload is the raw key. -/
  | setkey (payload : List Byte)
  /-- ENCBLK, `OPC = 0x02` (R110): the payload is the plaintext block. -/
  | encblk (payload : List Byte)
  /-- DECBLK, `OPC = 0x03` (R111): the payload is the ciphertext block. -/
  | decblk (payload : List Byte)
  deriving DecidableEq, Repr

/-- The command's payload (R54). -/
def Instr.payload : Instr → List Byte
  | .setkey p => p
  | .encblk p => p
  | .decblk p => p

/-- Why a byte sequence is no command frame (R54: "a frame cut short, or with bytes beyond `3 + LEN`"). -/
inductive FrameError where
  /-- Fewer than the three header bytes. -/
  | noHeader
  /-- Fewer than `LEN` payload bytes. -/
  | cutShort
  /-- More than `LEN` payload bytes. -/
  | overLong
  deriving DecidableEq, Repr

/-- What the decoder reads from a byte sequence. -/
inductive Decoded where
  /-- A well-formed frame whose opcode names a command (R57). -/
  | command (i : Instr)
  /-- A well-formed frame whose opcode names none (R58); its payload is consumed. -/
  | illegal (opc : Byte) (payload : List Byte)
  /-- No command frame at all (R54). -/
  | malformed (why : FrameError)
  deriving DecidableEq, Repr

end Sys2Proof
end

