-- ==== Sys2Proof/Machine/State.lean ====
section
/-! DEFINITION. The state of one core, the events of its host, its error kinds and the ways a step can stop
(10_state.md; 60_exceptions.md R151, R171; 70_reset_and_hazards.md R180 to R182). -/

namespace Sys2Proof.Machine

/-- The key material `KM`, the document's `EncryptionKey`: seven tables, each an index space of its own (R10 to R17,
R31). -/
structure KeyMaterial where
  /-- `PK`, R11. -/
  pk : KeyTable
  /-- `SK`, R12. -/
  sk : KeyTable
  /-- `SBOX`, R13. -/
  sbox : ByteTable
  /-- `ISBOX`, R14. -/
  isbox : ByteTable
  /-- `PT`, R15. -/
  pt : LaneTable
  /-- `IPT`, R16: stored, and read by no rule as written. -/
  ipt : LaneTable
  /-- `RC`, R17. -/
  rc : RoundTable
  deriving DecidableEq, Repr

/-- The error kinds of core and host in one enumeration, R151. -/
inductive Status where
  | ok
  /-- Core, SETKEY: R152. -/
  | invalidKeySize
  /-- Core, ENCBLK and DECBLK: R153. -/
  | invalidBlockSize
  /-- Host, `decrypt`: R134. -/
  | invalidCiphertextSize
  /-- Host, `removePadding`: R132. -/
  | emptyInput
  /-- Host, `removePadding`: R132. -/
  | invalidPadding
  /-- Host, `hexToBytes`: R137. -/
  | hexParseError
  /-- Core, ENCBLK and DECBLK: R154. -/
  | keyNotLoaded
  /-- Core, decoder: R155. -/
  | illegalCommand
  deriving DecidableEq, Repr

/-- What reaches the core from outside, R50: commands on the command channel, and reset. -/
inductive HostEvent where
  /-- One frame on the command channel, sent after the response to the one before it (R55, R186). -/
  | command (frame : Frame)
  /-- The reset event, R180. A reset that hits a command in progress stands here in that command's place: it leaves
  no response and the same state (R182). -/
  | reset
  /-- The host breaks R186: two frames overlapped in time or interleaved. -/
  | overlapped (first second : Frame)
  deriving DecidableEq, Repr

/-- Ways the machine stops because the run has gone wrong. -/
inductive Fault where
  /-- Raised by the core's event handling on an `overlapped` event: the host broke its duty R186, whose result "is not
  defined by the document" (U6: "If a model wants to cover it, the treatment is `fault`, never a value"). Safe: the
  model stops where a real device goes on with garbage. -/
  | unserialisedCommands
  deriving DecidableEq, Repr

/-- Ways the machine has no step. -/
inductive Refusal where
  /-- An instruction without a meaning yet; raised by no arm of this model. -/
  | notModelled (mnemonic : String)
  /-- Raised by the core's event handling on a byte sequence that is no command frame: R54, "a model has no move for
  it". Safe. -/
  | malformedFrame (why : FrameError)
  /-- Raised by ENCBLK and DECBLK on tables that are not bijections or not mutually inverse: U3 (`refuse`), D26 ("never
  define DECBLK's result for a non-bijective table"). No run from reset meets it. Safe. -/
  | inconsistentTables
  /-- Raised by the host Codec on a response frame that is none of the core's: U11, "A host model that receives one
  has no move". No core of this model sends one. Safe. -/
  | unknownResponse
  deriving DecidableEq, Repr

/-- The state of one core instance (R10) with its two channels (R50). -/
structure State where
  /-- `KEYVALID`, R21. -/
  keyValid : Bool
  /-- `KM`, R10. -/
  km : KeyMaterial
  /-- What the host does next, first event first: the order in which the core accepts commands (R41, R55). -/
  inbox : List HostEvent
  /-- The response frames emitted since reset, oldest first (R50, R55). -/
  outbox : List Frame
  /-- The model's own counter: which free table contents the next reset takes (log entry 1). -/
  draws : Nat
  deriving DecidableEq, Repr

/-- The unspecified contents of the seven tables after the `n`-th reset (R30, U2, U7): free values. -/
def unspecifiedTables (n : Nat) : KeyMaterial :=
  { pk := Config.resetPk n, sk := Config.resetSk n, sbox := Config.resetSbox n, isbox := Config.resetIsbox n,
    pt := Config.resetPt n, ipt := Config.resetIpt n, rc := Config.resetRc n }

/-- R30, R181: no key, tables unspecified, no command in progress, no response pending. -/
def State.reset : State :=
  { keyValid := false, km := unspecifiedTables 0, inbox := [], outbox := [], draws := 1 }

end Sys2Proof.Machine
end

