-- ==== Sys2Proof/Machine/Operands.lean ====
section
/-! DEFINITION. Reading operands: the payload as a key or a block (20_memory.md R33, R36), the four addressing forms
of the datapath (41_round_primitives.md R102), and the 8-bit windows of a round constant (R96). -/

namespace Sys2Proof.Machine

/-- R33, R36: a key is a payload of exactly 32 bytes, byte `k` of the payload being `key[k]`. -/
def asKey (payload : List Byte) : Option KeyTable :=
  if h : payload.length = Config.keyBytes then some ⟨payload.toArray, by simpa using h⟩ else none

/-- R33, R36: a block is a payload of exactly 16 bytes, byte `k` of the payload being `block[k]`. -/
def asBlock (payload : List Byte) : Option Block :=
  if h : payload.length = Config.blockBytes then some ⟨payload.toArray, by simpa using h⟩ else none

/-- R33: the block as a byte sequence, lane 0 first. -/
def blockBytesOf (b : Block) : List Byte := b.toList

/-- R102, data-indexed: `SBOX[ST[i]]`, `ISBOX[ST[i]]`. -/
def readByteTable (t : ByteTable) (index : Byte) : Byte := t[index.toNat]'index.isLt

/-- R102, lane-indexed: `PK[i mod 32]`, `SK[i mod 32]`. -/
def readKeyTable (t : KeyTable) (i : Lane) : Byte := t[i.val % Config.keyIndexMod]'(Nat.mod_lt _ (by decide))

/-- R102, lane-indexed: `PT[i]`, `IPT[i]`. -/
def readLaneTable (t : LaneTable) (i : Lane) : Lane := t[i.val]'i.isLt

/-- R102, round-indexed: `RC[rnd]`, read whole (R35). -/
def readRoundTable (t : RoundTable) (rnd : Round) : Word := t[rnd.val]'rnd.isLt

/-- `ST[i]`, `TMP[i]` (R8, R23). -/
def readLane (st : Block) (i : Lane) : Byte := st[i.val]'i.isLt

/-- `ST[i] <- v`, `TMP[i] <- v` (R8, R23). -/
def writeLane (st : Block) (i : Lane) (v : Byte) : Block := st.set i.val v i.isLt

/-- R96, MixKeyByte: `kb(rc, i) = (rc >> (i mod 32)) AND 0xFF`, first the shift, then the mask. -/
def mixKeyByte (rc : Word) (i : Lane) : Byte := ((rc >>> (i.val % Config.shiftMod)) &&& Config.mixMask).setWidth 8

/-- R18 (c) to (f): `ISBOX[SBOX[x]] = x` for every byte and `IPT[PT[i]] = i` for every lane. On these finite ranges
this makes `SBOX` and `PT` bijections and the other two their inverses (`Laws/Operands.lean`). -/
def tablesInvertible (km : KeyMaterial) : Bool :=
  ((List.finRange Config.sboxSize).all fun x =>
    readByteTable km.isbox (readByteTable km.sbox (BitVec.ofFin x)) == BitVec.ofFin x) &&
  ((List.finRange Config.blockBytes).all fun i => readLaneTable km.ipt (readLaneTable km.pt i) == i)

/-- R18 (b): `SK[i] = PK[i] XOR 0x36` for all `i`. -/
def secondaryMatches (km : KeyMaterial) : Bool := km.sk == km.pk.map (· ^^^ Config.skMask)

end Sys2Proof.Machine
end

