-- ==== Sys2Proof/Machine/Datapath.lean ====
section
/-! DEFINITION. The round primitives of the datapath (41_round_primitives.md R90 to R98), each a function from the 16
lanes of `ST` to the 16 lanes of `ST`; and the step schedule of 42_block_ops.md R117. -/

namespace Sys2Proof.Machine

/-- R91, Whiten(`K`): `ST[i] <- ST[i] XOR K[i mod 32]`. -/
def whiten (k : KeyTable) (st : Block) : Block := Vector.ofFn fun i => readLane st i ^^^ readKeyTable k i

/-- R92, Substitute: `ST[i] <- SBOX[ST[i]]`. -/
def substitute (sbox : ByteTable) (st : Block) : Block := Vector.ofFn fun i => readByteTable sbox (readLane st i)

/-- R93, InvSubstitute: `ST[i] <- ISBOX[ST[i]]`. -/
def invSubstitute (isbox : ByteTable) (st : Block) : Block := Vector.ofFn fun i => readByteTable isbox (readLane st i)

/-- R94, Permute, a scatter into `TMP`: `TMP[PT[i]] <- ST[i]` for `i` = 0 to 15, then `ST <- TMP` (R24). -/
def permute (pt : LaneTable) (st : Block) : Block :=
  (List.finRange Config.blockBytes).foldl (fun tmp i => writeLane tmp (readLaneTable pt i) (readLane st i))
    (Vector.ofFn Config.tmpBefore)

/-- R95, InvPermute, a gather: `TMP[i] <- ST[PT[i]]`, then `ST <- TMP`. -/
def invPermute (pt : LaneTable) (st : Block) : Block := Vector.ofFn fun i => readLane st (readLaneTable pt i)

/-- R95: the same function written with `IPT`, the scatter `TMP[IPT[j]] <- ST[j]`. "A datapath may use either." -/
def invPermuteByScatter (ipt : LaneTable) (st : Block) : Block := permute ipt st

/-- One pass of R97's loop: the constant, then the neighbour, "already the NEW value of lane i-1". -/
def mixLane (rc : Word) (st : Block) (i : Lane) : Block :=
  let st1 := writeLane st i (readLane st i ^^^ mixKeyByte rc i)
  if i.val = 0 then st1
  else writeLane st1 i (readLane st1 i ^^^ readLane st1 ⟨i.val - 1, Nat.lt_of_le_of_lt (Nat.sub_le _ _) i.isLt⟩)

/-- R97, Mix(`rc`): lanes 0 to 15, ascending. -/
def mix (rc : Word) (st : Block) : Block := (List.finRange Config.blockBytes).foldl (mixLane rc) st

/-- One pass of R98's loop: the neighbour, "still the OLD value of lane i-1", then the constant. -/
def invMixLane (rc : Word) (st : Block) (i : Lane) : Block :=
  let st1 :=
    if i.val = 0 then st
    else writeLane st i (readLane st i ^^^ readLane st ⟨i.val - 1, Nat.lt_of_le_of_lt (Nat.sub_le _ _) i.isLt⟩)
  writeLane st1 i (readLane st1 i ^^^ mixKeyByte rc i)

/-- R98, InvMix(`rc`): lanes 15 down to 0. -/
def invMix (rc : Word) (st : Block) : Block := (List.finRange Config.blockBytes).reverse.foldl (invMixLane rc) st

/-- The steps the datapath is made of, with the round whose constant a mix step reads (R117). -/
inductive Primitive where
  | whitenPk
  | whitenSk
  | substitute
  | invSubstitute
  | permute
  | invPermute
  | mix (rnd : Round)
  | invMix (rnd : Round)
  deriving DecidableEq, Repr

/-- What a primitive does to the 16 lanes (R90: it reads key material and never writes it). -/
def applyPrimitive (km : KeyMaterial) (st : Block) : Primitive → Block
  | .whitenPk => whiten km.pk st
  | .whitenSk => whiten km.sk st
  | .substitute => Machine.substitute km.sbox st
  | .invSubstitute => Machine.invSubstitute km.isbox st
  | .permute => Machine.permute km.pt st
  | .invPermute => Machine.invPermute km.pt st
  | .mix rnd => Machine.mix (readRoundTable km.rc rnd) st
  | .invMix rnd => Machine.invMix (readRoundTable km.rc rnd) st

/-- R100: the primitive that undoes a primitive, with the same key table or the same round constant. That it does, in
both directions and under R18, is proved in `Laws/Datapath.lean`. -/
def Primitive.inverse : Primitive → Primitive
  | .whitenPk => .whitenPk
  | .whitenSk => .whitenSk
  | .substitute => .invSubstitute
  | .invSubstitute => .substitute
  | .permute => .invPermute
  | .invPermute => .permute
  | .mix rnd => .invMix rnd
  | .invMix rnd => .mix rnd

/-- R117: step `u` of ENCBLK. -/
def encryptStep (u : Fin 50) : Primitive :=
  if u.val = 0 then .whitenPk
  else if u.val = 49 then .whitenSk
  else
    let k : Round := Fin.ofNat Config.rounds ((u.val - 1) / 3)
    if (u.val - 1) % 3 = 0 then .substitute else if (u.val - 1) % 3 = 1 then .permute else .mix k

/-- R117: step `u` of DECBLK. -/
def decryptStep (u : Fin 50) : Primitive :=
  if u.val = 0 then .whitenSk
  else if u.val = 49 then .whitenPk
  else
    let k : Round := Fin.ofNat Config.rounds ((u.val - 1) / 3)
    if (u.val - 1) % 3 = 0 then .invMix k.rev else if (u.val - 1) % 3 = 1 then .invPermute else .invSubstitute

end Sys2Proof.Machine
end

