-- ==== Sys2Proof/WellFormed.lean ====
section
/-! DEFINITION. Which commands can be written as a frame (30_encoding.md R52, R54). -/

namespace Sys2Proof

/-- R54: a payload is "a byte sequence of length 0 to 65535". It is the only check: R57 says that a payload of an
illegal length is still a well-formed command. -/
def payloadFits (payload : List Byte) : Bool := decide (payload.length ≤ Config.maxPayload)

/-- A command that a frame can carry. -/
def Instr.wellFormed : Instr → Bool
  | .setkey p => payloadFits p
  | .encblk p => payloadFits p
  | .decblk p => payloadFits p

end Sys2Proof
end

