-- ==== Sys2Proof/Decode.lean ====
section
/-! DEFINITION. Command frames to commands and back (30_encoding.md R51, R52, R54, R56 to R58; opcode_table.json). -/

namespace Sys2Proof

/-- A row of opcode_table.json: its mask is the low byte of the header word, so a row is an opcode byte. -/
structure OpcodeRow where
  mnemonic : String
  opc : Byte
  build : List Byte → Instr

/-- The opcode map, R57. -/
def opcodeTable : List OpcodeRow :=
  [ ⟨"SETKEY", 0x01, .setkey⟩,
    ⟨"ENCBLK", 0x02, .encblk⟩,
    ⟨"DECBLK", 0x03, .decblk⟩ ]

/-- R52: `LEN = zext_16(byte1) + 256 * zext_16(byte2)`, unsigned, low byte first. -/
def lenField (lo hi : Byte) : Nat := lo.toNat + 256 * hi.toNat

/-- The low byte of a 16-bit length, `LEN[7:0]` (R51, R53). -/
def lenLow (n : Nat) : Byte := BitVec.ofNat 8 n

/-- The high byte of a 16-bit length, `LEN[15:8]` (R51, R53). -/
def lenHigh (n : Nat) : Byte := BitVec.ofNat 8 (n / 256)

/-- R57, R58: "The opcode alone selects the command"; every other opcode is illegal. -/
def decodeOpcode (opc : Byte) (payload : List Byte) : Decoded :=
  match opcodeTable.find? (fun r => r.opc == opc) with
  | some r => .command (r.build payload)
  | none => .illegal opc payload

/-- R51, R54, R56: a command frame is three header bytes and exactly `LEN` payload bytes; anything else is no
frame, whatever its opcode. -/
def decodeFrame : Frame → Decoded
  | opc :: lo :: hi :: payload =>
    if payload.length < lenField lo hi then .malformed .cutShort
    else if lenField lo hi < payload.length then .malformed .overLong
    else decodeOpcode opc payload
  | _ => .malformed .noHeader

/-- The opcode byte of a command, R57. -/
def Instr.opcode : Instr → Byte
  | .setkey _ => 0x01
  | .encblk _ => 0x02
  | .decblk _ => 0x03

/-- R51: the frame with opcode byte `opc` and payload `p`. -/
def commandFrame (opc : Byte) (p : List Byte) : Frame := opc :: lenLow p.length :: lenHigh p.length :: p

/-- The frame of a command (R51). -/
def encode (i : Instr) : Frame := commandFrame i.opcode i.payload

/-- The first `k` bytes of the number `w`, least significant first. -/
def bytesOfWord : Nat → Nat → List Byte
  | 0, _ => []
  | k + 1, w => BitVec.ofNat 8 w :: bytesOfWord k (w / 256)

/-- The frame whose bits are `w`, numbered as opcode_table.json numbers its header word `H = OPC + 256 * LEN` (R51):
bits 7 to 0 are frame byte 0, and so on. Bits from `nbits` up are 0; the frame has the `3 + LEN` bytes its header
asks for (R56), or all `nbits` bits where these are more. -/
def frameOfWord (nbits w : Nat) : Frame :=
  let given := bytesOfWord (max 3 ((nbits + 7) / 8)) (w % 2 ^ nbits)
  let len := w % 2 ^ nbits / 256 % 65536
  given ++ List.replicate (3 + len - given.length) 0

/-- The command the decoder reads from the table word `w`; none where it refuses. -/
def decodeTableWord (nbits w : Nat) : Option Instr :=
  match decodeFrame (frameOfWord nbits w) with
  | .command i => some i
  | .illegal _ _ => none
  | .malformed _ => none

end Sys2Proof
end

