-- ==== Sys2Proof/Machine/Flags.lean ====
section
/-! DEFINITION. The flag `KEYVALID` (10_state.md R21); there is no other flag (R22). -/

namespace Sys2Proof.Machine

/-- R21: set by a successful SETKEY. -/
def setKeyValid (s : State) : State := { s with keyValid := true }

/-- R21: "nothing but a reset makes it 0 again". -/
def clearKeyValid (s : State) : State := { s with keyValid := false }

end Sys2Proof.Machine
end

