-- ==== Sys2Proof/Machine/Ops.lean ====
section
/-! DEFINITION. The shared operations: responding (30_encoding.md R53), raising an error (60_exceptions.md R150, R158),
installing key material (10_state.md R19) and reset (70_reset_and_hazards.md R180, R181). -/

namespace Sys2Proof.Machine

/-- The outcome of a step of this machine. -/
abbrev Result := Host.Outcome State Fault Refusal

/-- R151: the number of each error kind. -/
def statusCode : Status → Byte
  | .ok => 0x00
  | .invalidKeySize => 0x01
  | .invalidBlockSize => 0x02
  | .invalidCiphertextSize => 0x03
  | .emptyInput => 0x04
  | .invalidPadding => 0x05
  | .hexParseError => 0x06
  | .keyNotLoaded => 0x07
  | .illegalCommand => 0x08

/-- R53, the response frame: `STATUS`, `RLEN` low byte first, then `RLEN` payload bytes. -/
def responseFrame (status : Status) (payload : List Byte) : Frame :=
  statusCode status :: lenLow payload.length :: lenHigh payload.length :: payload

/-- R8, `respond(status, bytes)`: end the command with a response frame. -/
def respond (status : Status) (payload : List Byte) (s : State) : State :=
  { s with outbox := s.outbox ++ [responseFrame status payload] }

/-- R8, `raise E`, and R150, R158: taking an error. It "saves nothing", "changes nothing", and "the core emits the
response frame `STATUS = code, RLEN = 0` and is idle". There is no return from it (R159). -/
def raise (e : Status) (s : State) : Result := .next (respond e [] s)

/-- R19: all seven tables are replaced in one indivisible write. -/
def installKey (km : KeyMaterial) (s : State) : State := { s with km := km }

/-- R180, R181: after a reset `KEYVALID = 0`, the tables hold unspecified contents, no response is pending. What the
host does next is the host's. -/
def resetCore (s : State) : State :=
  clearKeyValid { s with km := unspecifiedTables s.draws, outbox := [], draws := s.draws + 1 }

end Sys2Proof.Machine
end

