-- ==== Sys2Proof/Machine/BlockOps.lean ====
section
/-! DEFINITION. The block commands ENCBLK and DECBLK (42_block_ops.md R110 to R119). -/

namespace Sys2Proof.Machine

/-- One round of ENCBLK, R110: Substitute, then Permute, then Mix(`RC[rnd]`). -/
def encryptRound (km : KeyMaterial) (st : Block) (rnd : Round) : Block :=
  mix (readRoundTable km.rc rnd) (permute km.pt (substitute km.sbox st))

/-- One round of DECBLK, R111: InvMix(`RC[rnd]`), then InvPermute, then InvSubstitute. -/
def decryptRound (km : KeyMaterial) (st : Block) (rnd : Round) : Block :=
  invSubstitute km.isbox (invPermute km.pt (invMix (readRoundTable km.rc rnd) st))

/-- R110, steps 1 to 3: whiten with `PK`, rounds 0 to 15 ascending, whiten with `SK`. -/
def encryptBlock (km : KeyMaterial) (b : Block) : Block :=
  whiten km.sk ((List.finRange Config.rounds).foldl (encryptRound km) (whiten km.pk b))

/-- R111, steps 1 to 3: whiten with `SK`, rounds 15 down to 0, whiten with `PK`. -/
def decryptBlock (km : KeyMaterial) (b : Block) : Block :=
  whiten km.pk ((List.finRange Config.rounds).reverse.foldl (decryptRound km) (whiten km.sk b))

/-- R112: the checks of a block command in order, first the length, then the key; then, U3, the refusal of tables that
are not bijections with their inverses. The transform changes no state (R113). -/
def blockCommand (transform : KeyMaterial → Block → Block) (payload : List Byte) (s : State) : Result :=
  match asBlock payload with
  | none => raise .invalidBlockSize s
  | some b =>
    if s.keyValid then
      if tablesInvertible s.km then .next (respond .ok (blockBytesOf (transform s.km b)) s)
      else .refused .inconsistentTables
    else raise .keyNotLoaded s

/-- ENCBLK, R110. -/
def execEncblk (payload : List Byte) (s : State) : Result := blockCommand encryptBlock payload s

/-- DECBLK, R111. -/
def execDecblk (payload : List Byte) (s : State) : Result := blockCommand decryptBlock payload s

end Sys2Proof.Machine
end

