-- ==== Sys2Proof/Machine/KeySchedule.lean ====
section
/-! DEFINITION. The function `KS` and the SETKEY command (40_keyschedule.md R70 to R84). -/

namespace Sys2Proof.Machine

/-- The next `k` generator outputs, in order, and the state they leave (R79: "Draw 16 successive 32-bit outputs from
the generator (continuing its state)"). -/
def drawWords (p : KeyScheduleParts) : (k : Nat) → Nat → Vector Word k × Nat
  | 0, g => (#v[], g)
  | k + 1, g =>
    let (ws, g1) := drawWords p k g
    let (w, g2) := p.next32 g1
    (ws.push w, g2)

/-- Exchange entries pair by pair, first pair first. -/
def applySwaps {α : Type} {n : Nat} (swaps : List (Fin n × Fin n)) (a : Vector α n) : Vector α n :=
  swaps.foldl (fun v ij => v.swap ij.1.val ij.2.val ij.1.isLt ij.2.isLt) a

/-- R72, `Shuffle(a, g) -> (a', g')`: "permutes a sequence and advances the generator". -/
def shuffle (p : KeyScheduleParts) {α : Type} {n : Nat} (a : Vector α n) (g : Nat) : Vector α n × Nat :=
  let (ws, g') := drawWords p (p.shuffleDraws n g) g
  (applySwaps (p.shuffleSwaps n ws.toList) a, g')

/-- The identity sequence `0, 1, ..., n-1` (R76, R78). -/
def identitySequence (n : Nat) : Vector (Fin n) n := Vector.ofFn id

/-- R77, R78: the table `u` with `u[t[i]] = i`, written entry by entry. -/
def invertTable {n : Nat} (t : Vector (Fin n) n) : Vector (Fin n) n :=
  (List.finRange n).foldl (fun u i => u.set (t[i.val]'i.isLt).val i (t[i.val]'i.isLt).isLt) t

/-- R73 to R79, R81: the eight steps, with one generator stream used for the substitution box, then the permutation
table, then the round constants. -/
def keySchedule (p : KeyScheduleParts) (key : KeyTable) : KeyMaterial :=
  let g0 := p.init (p.hash key)
  let (sbox, g1) := shuffle p (identitySequence Config.sboxSize) g0
  let (pt, g2) := shuffle p (identitySequence Config.ptSize) g1
  let (rc, _) := drawWords p Config.rounds g2
  { pk := key
    sk := key.map (· ^^^ Config.skMask)
    sbox := sbox.map BitVec.ofFin
    isbox := (invertTable sbox).map BitVec.ofFin
    pt := pt
    ipt := invertTable pt
    rc := rc }

/-- The device's `KS` (R72): the eight steps over its own, open, parts. -/
def ks (key : KeyTable) : KeyMaterial := keySchedule Config.keyScheduleParts key

/-- SETKEY, R70, R71: the length check first; then all seven tables at once and `KEYVALID`; an empty `OK` response. -/
def execSetkey (payload : List Byte) (s : State) : Result :=
  match asKey payload with
  | none => raise .invalidKeySize s
  | some key => .next (respond .ok [] (setKeyValid (installKey (ks key) s)))

end Sys2Proof.Machine
end

