-- ==== Sys2Proof/Machine/Dispatch.lean ====
section
/-! DEFINITION. One arm per constructor of Instr. -/

namespace Sys2Proof.Machine

def exec (i : Instr) (s : State) : Host.Outcome State Fault Refusal :=
  match i with
  | .setkey payload => Sys2Proof.Machine.execSetkey payload s
  | .encblk payload => Sys2Proof.Machine.execEncblk payload s
  | .decblk payload => Sys2Proof.Machine.execDecblk payload s

end Sys2Proof.Machine
end

