-- ==== Sys2Proof/Machine/Interface.lean ====
section
/-! DEFINITION. What the core does with the next thing that reaches it from outside (30_encoding.md R50, R54, R55, R58;
70_reset_and_hazards.md R180, R186). -/

namespace Sys2Proof.Machine

/-- R54, R55, R58: a command frame is decoded and run to its response; an illegal opcode is answered `IllegalCommand`;
a byte sequence that is no frame has no step. -/
def acceptFrame (frame : Frame) (s : State) : Result :=
  match decodeFrame frame with
  | .command i => exec i s
  | .illegal _ _ => raise .illegalCommand s
  | .malformed why => .refused (.malformedFrame why)

/-- One event from outside. -/
def acceptEvent (e : HostEvent) (s : State) : Result :=
  match e with
  | .command frame => acceptFrame frame s
  | .reset => .next (resetCore s)
  | .overlapped _ _ => .fault .unserialisedCommands

/-- R181: "wait for a command": with nothing from outside, nothing changes. -/
def idle (s : State) : Result := .next s

/-- Take the next event off the channel and act on it; wait where there is none. -/
def acceptNext (s : State) : Result :=
  match s.inbox with
  | [] => idle s
  | e :: rest => acceptEvent e { s with inbox := rest }

/-- Put a frame on the command channel so that it is the next event. -/
def sendNext (frame : Frame) (s : State) : State := { s with inbox := .command frame :: s.inbox }

end Sys2Proof.Machine
end

