-- ==== Sys2Proof/Machine/Step.lean ====
section
/-! DEFINITION. One step of the core: one command, whole (00_scope.md R9, 30_encoding.md R55), one reset, or a wait. -/

namespace Sys2Proof.Machine

/-- One step. -/
def step (s : State) : Host.Outcome State Fault Refusal := acceptNext s

/-- The state whose very next step runs the instruction with bits `w` (numbered as in opcode_table.json): the core
fetches nothing (R25), so the instruction is the next frame on the command channel. -/
def State.withFetchWord (s : State) (nbits w : Nat) : State := sendNext (frameOfWord nbits w) s

end Sys2Proof.Machine
end

