-- ==== Sys2Proof/Machine/Codec.lean ====
section
/-! DEFINITION. The host's Codec, a second agent outside the core (43_host_codec.md R130 to R141; 30_encoding.md R60).
It reaches the core only by frames: it puts a command frame on the command channel, the core steps, and it reads the
response frame. -/

namespace Sys2Proof.Machine

/-- What an operation of the host gives its caller: a value, or one error kind and nothing else (R141). -/
inductive Reply (α : Type) where
  | ok (value : α)
  | error (kind : Status)
  deriving DecidableEq, Repr

/-- A host operation that drives the core: its reply and the core afterwards, or the core's stop. -/
abbrev HostRun := Host.Outcome (Reply (List Byte) × State) Fault Refusal

/-- R151: the kinds the core raises. The host kinds 0x03 to 0x06 never stand in a `STATUS` byte. -/
def coreStatuses : List Status := [.ok, .invalidKeySize, .invalidBlockSize, .keyNotLoaded, .illegalCommand]

/-- R151 read backwards: what a `STATUS` byte of the core says; `none` for every other code (U11). -/
def statusOfCode (c : Byte) : Option Status := coreStatuses.find? fun e => statusCode e == c

/-- R53 read by the host: a response frame is `STATUS`, `RLEN` and `RLEN` payload bytes. -/
def readResponse : Frame → Option (Reply (List Byte))
  | code :: lo :: hi :: payload =>
    if payload.length = lenField lo hi then
      match statusOfCode code with
      | some .ok => some (.ok payload)
      | some e => some (.error e)
      | none => none
    else none
  | _ => none

/-- One command of the host: send its frame, let the core take one step, read the one response (R55). -/
def issue (i : Instr) (s : State) : HostRun :=
  match step (sendNext (encode i) s) with
  | .fault r => .fault r
  | .refused r => .refused r
  | .next t =>
    match (t.outbox.drop s.outbox.length).map readResponse with
    | [some reply] => .next (reply, t)
    | _ => .refused .unknownResponse

/-- Consecutive non-overlapping blocks, `k` of them (R133). -/
def splitBlocks : (k : Nat) → List Byte → List (List Byte)
  | 0, _ => []
  | k + 1, bs => bs.take Config.blockBytes :: splitBlocks k (bs.drop Config.blockBytes)

/-- R131, `padInput`. -/
def padInput (m : List Byte) : List Byte :=
  let p := Config.padBlock - m.length % Config.padBlock
  m ++ List.replicate p (BitVec.ofNat 8 p)

/-- R132, `removePadding`: only the last byte is looked at. -/
def removePadding (d : List Byte) : Reply (List Byte) :=
  match d.getLast? with
  | none => .error .emptyInput
  | some last =>
    if last.toNat > Config.padBlock ∨ last.toNat > d.length then .error .invalidPadding
    else .ok (d.take (d.length - last.toNat))

/-- R60: the commands that ENCRYPT expands to. -/
def encryptCommands (m : List Byte) : List Instr :=
  (splitBlocks ((padInput m).length / Config.blockBytes) (padInput m)).map .encblk

/-- R60: the commands that DECRYPT expands to, once the length is a multiple of 16. -/
def decryptCommands (c : List Byte) : List Instr :=
  (splitBlocks (c.length / Config.blockBytes) c).map .decblk

/-- Issue the commands in order and concatenate the response payloads; the first failure ends it, without any partial
result (R60, R133, R141). -/
def issueAll : List Instr → State → HostRun
  | [], s => .next (.ok [], s)
  | i :: is, s =>
    match issue i s with
    | .next (.ok out, t) =>
      match issueAll is t with
      | .next (.ok outs, u) => .next (.ok (out ++ outs), u)
      | stop => stop
    | stop => stop

/-- The caller's `setKey` (R140): SETKEY, and its reply. A key of more than 65535 bytes fits no frame (R52); the host
then answers `InvalidKeySize` itself and sends nothing. DESIGN CHOICE, log entry 21: the spec says only that such a
length cannot be expressed and would give that error. -/
def hostSetKey (key : List Byte) (s : State) : HostRun :=
  if key.length ≤ Config.maxPayload then issue (.setkey key) s else .next (.error .invalidKeySize, s)

/-- R133, `encrypt`, the pseudo-instruction ENCRYPT. -/
def hostEncrypt (m : List Byte) (s : State) : HostRun := issueAll (encryptCommands m) s

/-- R134, `decrypt`, the pseudo-instruction DECRYPT: the size check before any DECBLK, the padding removed once, at the
end. -/
def hostDecrypt (c : List Byte) (s : State) : HostRun :=
  if c.length % Config.blockBytes ≠ 0 then .next (.error .invalidCiphertextSize, s)
  else
    match issueAll (decryptCommands c) s with
    | .next (.ok out, t) => .next (removePadding out, t)
    | stop => stop

/-- A character of a text: 8 bits (R135). -/
structure Character where
  code : Byte
  deriving DecidableEq, Repr

/-- R135: "A text is a sequence of 8-bit characters". -/
abbrev Text := List Character

/-- R135, `textToBytes`. -/
def textToBytes (t : Text) : List Byte := t.map Character.code

/-- R135, `bytesToText`. -/
def bytesToText (bs : List Byte) : Text := bs.map Character.mk

/-- The digit of a four-bit value, from "0123456789ABCDEF" (R136). -/
def hexDigit (v : Nat) : Character := ⟨BitVec.ofNat 8 (if v < 10 then 0x30 + v else 0x41 + (v - 10))⟩

/-- The value of a hexadecimal digit: `0` to `9`, `A` to `F` and `a` to `f` (R137, D22). -/
def hexValue (c : Character) : Option Nat :=
  let n := c.code.toNat
  if 0x30 ≤ n ∧ n ≤ 0x39 then some (n - 0x30)
  else if 0x41 ≤ n ∧ n ≤ 0x46 then some (n - 0x41 + 10)
  else if 0x61 ≤ n ∧ n ≤ 0x66 then some (n - 0x61 + 10)
  else none

/-- R136, `bytesToHex`: the high digit, then the low digit. -/
def bytesToHex (bs : List Byte) : Text :=
  bs.flatMap fun b => [hexDigit (b.toNat / 16), hexDigit (b.toNat % 16)]

/-- R137, `hexToBytes`: complete pairs in order; an odd last character is dropped unexamined (C4); on failure nothing
is returned. -/
def hexToBytes : Text → Reply (List Byte)
  | high :: low :: rest =>
    match hexValue high, hexValue low with
    | some h, some l =>
      match hexToBytes rest with
      | .ok bs => .ok (BitVec.ofNat 8 (16 * h + l) :: bs)
      | .error e => .error e
    | _, _ => .error .hexParseError
  | _ => .ok []

end Sys2Proof.Machine
end

