-- ==== Sys2Proof/Machine/Assembler.lean ====
section
/-! DEFINITION. The assembler notation of this spec (30_encoding.md R59): a command as a mnemonic and its payload in
hexadecimal, `.frame` and `.cmd` lines, and a response line. Texts are 8-bit characters; words are spelled by code. -/

namespace Sys2Proof.Machine

def spaceCode : Byte := 0x20

/-- The mnemonics `SETKEY`, `ENCBLK` and `DECBLK` by character code. -/
def mnemonicText : Instr → Text
  -- SETKEY
  | .setkey _ => bytesToText [0x53, 0x45, 0x54, 0x4B, 0x45, 0x59]
  -- ENCBLK
  | .encblk _ => bytesToText [0x45, 0x4E, 0x43, 0x42, 0x4C, 0x4B]
  -- DECBLK
  | .decblk _ => bytesToText [0x44, 0x45, 0x43, 0x42, 0x4C, 0x4B]

/-- The word `.cmd`, for an opcode with no mnemonic. -/
def cmdWord : Text := bytesToText [0x2E, 0x63, 0x6D, 0x64]

/-- The word `.frame`, for a raw frame. -/
def frameWord : Text := bytesToText [0x2E, 0x66, 0x72, 0x61, 0x6D, 0x65]

/-- The names of the error kinds as R151 spells them. -/
def statusNameCodes : Status → List Byte
  -- OK
  | .ok => [0x4F, 0x4B]
  -- InvalidKeySize
  | .invalidKeySize => [0x49, 0x6E, 0x76, 0x61, 0x6C, 0x69, 0x64, 0x4B, 0x65, 0x79, 0x53, 0x69, 0x7A, 0x65]
  -- InvalidBlockSize
  | .invalidBlockSize =>
    [0x49, 0x6E, 0x76, 0x61, 0x6C, 0x69, 0x64, 0x42, 0x6C, 0x6F, 0x63, 0x6B, 0x53, 0x69, 0x7A,
      0x65]
  -- InvalidCiphertextSize
  | .invalidCiphertextSize =>
    [0x49, 0x6E, 0x76, 0x61, 0x6C, 0x69, 0x64, 0x43, 0x69, 0x70, 0x68, 0x65, 0x72, 0x74, 0x65, 0x78,
      0x74, 0x53, 0x69, 0x7A, 0x65]
  -- EmptyInput
  | .emptyInput => [0x45, 0x6D, 0x70, 0x74, 0x79, 0x49, 0x6E, 0x70, 0x75, 0x74]
  -- InvalidPadding
  | .invalidPadding => [0x49, 0x6E, 0x76, 0x61, 0x6C, 0x69, 0x64, 0x50, 0x61, 0x64, 0x64, 0x69, 0x6E, 0x67]
  -- HexParseError
  | .hexParseError => [0x48, 0x65, 0x78, 0x50, 0x61, 0x72, 0x73, 0x65, 0x45, 0x72, 0x72, 0x6F, 0x72]
  -- KeyNotLoaded
  | .keyNotLoaded => [0x4B, 0x65, 0x79, 0x4E, 0x6F, 0x74, 0x4C, 0x6F, 0x61, 0x64, 0x65, 0x64]
  -- IllegalCommand
  | .illegalCommand => [0x49, 0x6C, 0x6C, 0x65, 0x67, 0x61, 0x6C, 0x43, 0x6F, 0x6D, 0x6D, 0x61, 0x6E, 0x64]

/-- R59: a command as a mnemonic and its payload in hexadecimal, two digits per byte, index 0 first. -/
def showCommand (i : Instr) : Text := mnemonicText i ++ ⟨spaceCode⟩ :: bytesToHex i.payload

/-- R59: a response as `-> OK <hex>` or `-> <ErrorName>`; without a payload there is no hexadecimal. -/
def showResponse (status : Status) (payload : List Byte) : Text :=
  bytesToText ([0x2D, 0x3E, spaceCode] ++ statusNameCodes status) ++
    (if payload = [] then [] else ⟨spaceCode⟩ :: bytesToHex payload)

/-- The characters up to the first space, and those after it. -/
def firstWord : Text → Text × Text
  | [] => ([], [])
  | c :: cs =>
    if c.code = spaceCode then ([], cs)
    else
      let (word, rest) := firstWord cs
      (c :: word, rest)

/-- R59: "two digits per byte, index 0 first, spaces allowed"; a half byte or a character that is no digit is no
hexadecimal. -/
def readHex (t : Text) : Option (List Byte) :=
  let digits := t.filter fun c => c.code != spaceCode
  if digits.length % 2 = 0 then
    match hexToBytes digits with
    | .ok bs => some bs
    | .error _ => none
  else none

/-- A payload whose length the length field can express (R52). -/
def readPayload (t : Text) : Option (List Byte) :=
  match readHex t with
  | some bs => if bs.length ≤ Config.maxPayload then some bs else none
  | none => none

/-- `0x7F`: the opcode of a `.cmd` line. -/
def readOpcode : Text → Option Byte
  | [zero, x, high, low] =>
    if zero.code = 0x30 ∧ x.code = 0x78 then
      match hexToBytes [high, low] with
      | .ok [b] => some b
      | _ => none
    else none
  | _ => none

/-- R59: the frame a line stands for; `LEN` is the number of bytes written. `none` where the line is none of R59's. A
`.cmd` line may name any opcode, also one that has a mnemonic: DESIGN CHOICE, log entry 16, since R59 gives `.cmd` only
for an opcode with none. -/
def assemble (line : Text) : Option Frame :=
  let (word, rest) := firstWord line
  if word = mnemonicText (.setkey []) then (readPayload rest).map fun p => encode (.setkey p)
  else if word = mnemonicText (.encblk []) then (readPayload rest).map fun p => encode (.encblk p)
  else if word = mnemonicText (.decblk []) then (readPayload rest).map fun p => encode (.decblk p)
  else if word = frameWord then readHex rest
  else if word = cmdWord then
    let (opc, payload) := firstWord rest
    match readOpcode opc, readPayload payload with
    | some o, some p => some (commandFrame o p)
    | _, _ => none
  else none

end Sys2Proof.Machine
end

