-- ==== Sys2Proof/Machine/KeyScheduleRef.lean ====
section
/-! DEFINITION. `KS_ref`, the reference key schedule (92_eei_decisions.md D11, section 2): one instance of the open
parts, for the worked examples only. The machine does not use it: "a model must not take `KS_ref` as `KS` unless it
says so". -/

namespace Sys2Proof.Machine

/-- Section 2.1, `Hash_ref`: 32-bit FNV-1a, with the guard against 0. -/
def hashRef (key : KeyTable) : Nat :=
  let h := key.toList.foldl (fun h b => (h ^^^ b.setWidth 32) * 0x01000193#32) 0x811C9DC5#32
  if h = 0 then 1 else h.toNat

/-- Section 2.2, `PRNG_ref`: one 32-bit word; the new state is also the output. -/
def next32Ref (g : Nat) : Word × Nat :=
  let x0 := BitVec.ofNat 32 g
  let x1 := x0 ^^^ (x0 <<< 13)
  let x2 := x1 ^^^ (x1 >>> 17)
  let x3 := x2 ^^^ (x2 <<< 5)
  (x3, x3.toNat)

/-- Section 2.3, `Shuffle_ref`: for `i` from `n-1` down to 1, swap entries `i` and `next32() mod (i + 1)`. -/
def shuffleSwapsRef (n : Nat) (ws : List Word) : List (Fin n × Fin n) :=
  List.zipWith
    (fun (i : Fin n) w =>
      (i, ⟨w.toNat % (i.val + 1), Nat.lt_of_lt_of_le (Nat.mod_lt _ (Nat.succ_pos _)) i.isLt⟩))
    (List.finRange n).reverse.dropLast ws

/-- The three parts of `KS_ref`; a shuffle of `n` entries draws `n - 1` outputs. -/
def partsRef : KeyScheduleParts :=
  { hash := hashRef, init := id, next32 := next32Ref, shuffleDraws := fun n _ => n - 1, shuffleSwaps := shuffleSwapsRef }

/-- Section 2.4, `KS_ref`. -/
def ksRef (key : KeyTable) : KeyMaterial := keySchedule partsRef key

end Sys2Proof.Machine
end

