-- ==== Sys2Proof/Safety.lean ====
section
/-! DEFINITION. The invariant of the key material (10_state.md R18) and what a safe run is. -/

namespace Sys2Proof.Machine

/-- R18: whenever `KEYVALID = 1`, (b) `SK[i] = PK[i] XOR 0x36`, (c) to (f) the tables are bijections with their
inverses. (a) is about history and is said of SETKEY itself; (g) is the type of `RC`. -/
abbrev State.KeyInvariant (s : State) : Prop :=
  s.keyValid = true → tablesInvertible s.km = true ∧ secondaryMatches s.km = true

/-- Everything the host has yet to do keeps its duties: whole frames (R54), no overlap (R186). -/
abbrev HostEvent.Dutiful : HostEvent → Prop
  | .command frame => ∀ why, decodeFrame frame ≠ .malformed why
  | .reset => True
  | .overlapped _ _ => False

/-- A state from which every step is answered as long as the host keeps its duties. -/
def State.Safe (s : State) : Prop := s.KeyInvariant ∧ ∀ e ∈ s.inbox, e.Dutiful

/-- What the outside can see of a run: how it stopped, or the flag, the events still to come and the responses; not the
tables (R30, U2). -/
def observe : Host.Outcome State Fault Refusal → Host.Outcome (Bool × List HostEvent × List Frame) Fault Refusal
  | .next s => .next (s.keyValid, s.inbox, s.outbox)
  | .fault r => .fault r
  | .refused r => .refused r

end Sys2Proof.Machine
end

