-- ==== Sys2Proof/Certificates/Slice0/Obligations.lean ====
section
/-! DEFINITION. The statements for the provers. Response frames are written out as bytes: STATUS, RLEN low, RLEN high,
payload (R53). -/

open Sys2Proof Sys2Proof.Machine

/-! ## Encoding -/

/-- R51, R52, R57: the decoder reads back every command that a frame can carry, payload and all. -/
def Obligations.DecodeOfEncodeIsTheCommand : Prop :=
  ∀ i : Instr, i.wellFormed = true → decodeFrame (encode i) = .command i

/-- R56, "There is one format in each direction": a frame that decodes to a command is that command's encoding. -/
def Obligations.EncodeOfDecodeIsTheFrame : Prop :=
  ∀ (f : Frame) (i : Instr), decodeFrame f = .command i → i.wellFormed = true ∧ encode i = f

/-- R57, "The opcode alone selects the command", and R58: whatever the payload of a well-formed frame is. -/
def Obligations.OpcodeAloneSelectsTheCommand : Prop :=
  ∀ (opc lo hi : Byte) (p : List Byte), p.length = lo.toNat + 256 * hi.toNat →
    decodeFrame (opc :: lo :: hi :: p) =
      if opc = 0x01 then .command (.setkey p)
      else if opc = 0x02 then .command (.encblk p)
      else if opc = 0x03 then .command (.decblk p)
      else .illegal opc p

/-- R51: a few frames written out from the spec's encoding, LEN low byte first; and header words of the opcode table,
whose missing payload bytes are zeros by the model's choice (log entry 5). -/
def Obligations.WordsOfTheSpecDecode : Prop :=
  decodeFrame [0x02, 0x10, 0x00, 0x48, 0x45, 0x4C, 0x4C, 0x4F, 0x0B, 0x0B, 0x0B, 0x0B, 0x0B, 0x0B, 0x0B, 0x0B, 0x0B,
      0x0B, 0x0B] =
    .command (.encblk [0x48, 0x45, 0x4C, 0x4C, 0x4F, 0x0B, 0x0B, 0x0B, 0x0B, 0x0B, 0x0B, 0x0B, 0x0B, 0x0B, 0x0B, 0x0B]) ∧
  decodeFrame [0x01, 0x00, 0x00] = .command (.setkey []) ∧
  decodeFrame [0x03, 0x02, 0x00, 0xAA, 0xBB] = .command (.decblk [0xAA, 0xBB]) ∧
  decodeFrame [0x7F, 0x00, 0x00] = .illegal 0x7F [] ∧
  decodeTableWord 24 0x002001 = some (.setkey (List.replicate 32 0)) ∧
  decodeTableWord 24 0x001003 = some (.decblk (List.replicate 16 0)) ∧
  decodeTableWord 24 0x000004 = none

/-! ## Steps, frames and responses -/

/-- R54, R55: when the next event is a frame that decodes to a command, the step takes the frame off the channel and is
exec of that command, and nothing else. -/
def Obligations.StepRunsTheDecodedCommand : Prop :=
  ∀ (s : State) (f : Frame) (rest : List HostEvent) (i : Instr), s.inbox = .command f :: rest →
    decodeFrame f = .command i → step s = exec i { s with inbox := rest }

/-- R51: the step after `withFetchWord` runs the command the decoder reads from the table word, in the very state. -/
def Obligations.TableWordRunsNext : Prop :=
  ∀ (s : State) (nbits w : Nat) (i : Instr), decodeTableWord nbits w = some i →
    step (s.withFetchWord nbits w) = exec i s

/-- R181: with nothing from outside the core waits. -/
def Obligations.CoreWaitsForACommand : Prop :=
  ∀ s : State, s.inbox = [] → step s = .next s

/-- R54: the frames without a step are exactly the ones that are cut short or over-long. The refusal's name is the
model's (log entry 6). -/
def Obligations.MalformedFramesHaveNoStep : Prop :=
  ∀ (s : State) (f : Frame) (rest : List HostEvent), s.inbox = .command f :: rest →
    ((∃ why, step s = .refused (.malformedFrame why)) ↔
      ∀ (opc lo hi : Byte) (p : List Byte), f = opc :: lo :: hi :: p → p.length ≠ lo.toNat + 256 * hi.toNat)

/-- R58: an illegal command consumes its payload, changes no state and is answered IllegalCommand, RLEN 0. -/
def Obligations.IllegalOpcodesAreAnswered : Prop :=
  ∀ (s : State) (opc lo hi : Byte) (p : List Byte) (rest : List HostEvent),
    opc ≠ 0x01 → opc ≠ 0x02 → opc ≠ 0x03 → p.length = lo.toNat + 256 * hi.toNat →
    s.inbox = .command (opc :: lo :: hi :: p) :: rest →
    step s = .next { s with inbox := rest, outbox := s.outbox ++ [[0x08, 0x00, 0x00]] }

/-- R53: every command that takes a step is answered by exactly one frame, whose RLEN is 16 for a successful ENCBLK or
DECBLK and 0 in every other case. -/
def Obligations.ResponseFrames : Prop :=
  ∀ (s t : State) (opc lo hi : Byte) (p : List Byte) (rest : List HostEvent),
    s.inbox = .command (opc :: lo :: hi :: p) :: rest → step s = .next t →
    ∃ r : Frame, t.outbox = s.outbox ++ [r] ∧
      (((opc = 0x02 ∨ opc = 0x03) ∧ ∃ b : Block, r = 0x00 :: 0x10 :: 0x00 :: b.toList) ∨
       (opc = 0x01 ∧ r = [0x00, 0x00, 0x00]) ∨
       (∃ code : Byte, code ≠ 0x00 ∧ r = [code, 0x00, 0x00]))

/-- R151, R53: the codes of the error kinds, the layout of a response frame with any payload, and the codes that the
core itself ever answers: the host-side kinds 0x03 to 0x06 are not among them. -/
def Obligations.StatusCodesAndLayout : Prop :=
  (statusCode .ok = 0x00 ∧ statusCode .invalidKeySize = 0x01 ∧ statusCode .invalidBlockSize = 0x02 ∧
    statusCode .invalidCiphertextSize = 0x03 ∧ statusCode .emptyInput = 0x04 ∧ statusCode .invalidPadding = 0x05 ∧
    statusCode .hexParseError = 0x06 ∧ statusCode .keyNotLoaded = 0x07 ∧ statusCode .illegalCommand = 0x08) ∧
  (∀ (e : Status) (p : List Byte), p.length ≤ 65535 →
    ∃ lo hi : Byte, responseFrame e p = statusCode e :: lo :: hi :: p ∧ lo.toNat + 256 * hi.toNat = p.length) ∧
  ∀ (s t : State) (f : Frame) (rest : List HostEvent), s.inbox = .command f :: rest → step s = .next t →
    ∃ (code : Byte) (body : List Byte), t.outbox = s.outbox ++ [code :: body] ∧
      code ∈ [0x00, 0x01, 0x02, 0x07, 0x08]

/-- R152 to R155: each error of the core is answered exactly where the rules say, and then nothing but the response
changes. -/
def Obligations.ErrorsAreRaisedExactlyWhere : Prop :=
  ∀ (s t : State) (opc lo hi : Byte) (p : List Byte) (rest : List HostEvent),
    s.inbox = .command (opc :: lo :: hi :: p) :: rest → step s = .next t →
    (t.outbox = s.outbox ++ [[0x01, 0x00, 0x00]] ↔ opc = 0x01 ∧ p.length ≠ 32) ∧
    (t.outbox = s.outbox ++ [[0x02, 0x00, 0x00]] ↔ (opc = 0x02 ∨ opc = 0x03) ∧ p.length ≠ 16) ∧
    (t.outbox = s.outbox ++ [[0x07, 0x00, 0x00]] ↔
      (opc = 0x02 ∨ opc = 0x03) ∧ p.length = 16 ∧ s.keyValid = false) ∧
    (t.outbox = s.outbox ++ [[0x08, 0x00, 0x00]] ↔ opc ≠ 0x01 ∧ opc ≠ 0x02 ∧ opc ≠ 0x03) ∧
    (∀ code : Byte, code ≠ 0x00 → t.outbox = s.outbox ++ [[code, 0x00, 0x00]] →
      t = { s with inbox := rest, outbox := s.outbox ++ [[code, 0x00, 0x00]] })

/-- R157: the core's checks in order, opcode, then length, then KEYVALID, each reporting its own error. The tables are
consistent, as they are whenever KEYVALID is 1 (R18). -/
def Obligations.ChecksHaveAFixedOrder : Prop :=
  ∀ (s : State) (opc lo hi : Byte) (p : List Byte) (rest : List HostEvent),
    s.KeyInvariant → p.length = lo.toNat + 256 * hi.toNat →
    s.inbox = .command (opc :: lo :: hi :: p) :: rest →
    ∃ (t : State) (code : Byte) (body : List Byte), step s = .next t ∧ t.outbox = s.outbox ++ [code :: body] ∧
      code =
        if opc ≠ 0x01 ∧ opc ≠ 0x02 ∧ opc ≠ 0x03 then 0x08
        else if opc = 0x01 then (if p.length ≠ 32 then 0x01 else 0x00)
        else if p.length ≠ 16 then 0x02
        else if s.keyValid = false then 0x07
        else 0x00

/-- R158: an error changes nothing and no error is sticky: the next command is run as if the failed one had never been
sent. -/
def Obligations.ErrorsLeaveNothingBehind : Prop :=
  ∀ (s t : State) (i : Instr) (code : Byte), code ≠ 0x00 → exec i s = .next t →
    t.outbox = s.outbox ++ [[code, 0x00, 0x00]] →
    t = { s with outbox := s.outbox ++ [[code, 0x00, 0x00]] } ∧
    ∀ (j : Instr) (u : State), exec j s = .next u →
      ∃ r : Frame, u.outbox = s.outbox ++ [r] ∧ exec j t = .next { u with outbox := t.outbox ++ [r] }

/-- R186, U6: two overlapped frames stop the run; never a value. That it is a fault is the model's choice (log entry
7). -/
def Obligations.OverlappedCommandsFault : Prop :=
  ∀ (s : State) (f g : Frame) (rest : List HostEvent), s.inbox = .overlapped f g :: rest →
    step s = .fault .unserialisedCommands

/-! ## SETKEY and the key schedule -/

/-- R70: SETKEY with 32 bytes installs all seven tables and KEYVALID and answers an empty OK; with any other length it
answers InvalidKeySize. Nothing else changes. -/
def Obligations.SetkeyInstallsTheKey : Prop :=
  (∀ (key : KeyTable) (s : State), exec (.setkey key.toList) s =
    .next { s with keyValid := true, km := ks key, outbox := s.outbox ++ [[0x00, 0x00, 0x00]] }) ∧
  (∀ (p : List Byte) (s : State), p.length ≠ 32 → exec (.setkey p) s =
    .next { s with outbox := s.outbox ++ [[0x01, 0x00, 0x00]] })

/-- R71: after a failed SETKEY the state is what it was, and an installed key stays usable: every command answers as it
would have before. -/
def Obligations.FailedSetkeyKeepsTheOldKey : Prop :=
  ∀ (s : State) (p : List Byte), p.length ≠ 32 →
    ∃ t : State, exec (.setkey p) s = .next t ∧ t.keyValid = s.keyValid ∧ t.km = s.km ∧
      ∀ (i : Instr) (u : State), exec i s = .next u →
        ∃ r : Frame, u.outbox = s.outbox ++ [r] ∧ exec i t = .next { u with outbox := t.outbox ++ [r] }

/-- R80: the named properties of KS, of the device's open key schedule and of the reference one. `KS_rc_len` is the
type of `RC`, and `KS_det` that `ks` is a function. -/
def Obligations.KeyScheduleProperties : Prop :=
  ∀ (key : KeyTable) (km : KeyMaterial), km = ks key ∨ km = ksRef key →
    km.pk = key ∧
    (∀ i : Fin 32, km.sk[i] = key[i] ^^^ 0x36) ∧
    Function.Bijective (readByteTable km.sbox) ∧
    (∀ x : Byte, readByteTable km.isbox (readByteTable km.sbox x) = x) ∧
    Function.Bijective (readLaneTable km.pt) ∧
    (∀ i : Lane, readLaneTable km.ipt (readLaneTable km.pt i) = i)

/-- R79, R81: the round constants are the outputs that follow the ones the two shuffles drew, in one stream from the
seed of the key. That a shuffle draws a number of outputs fixed by its start state is the model's form (log entry
3). -/
def Obligations.KeyScheduleUsesOneStream : Prop :=
  ∀ (p : KeyScheduleParts) (key : KeyTable) (r : Round),
    let after : Nat → Nat := fun g => (p.next32 g).2
    let g0 := p.init (p.hash key)
    let drawn1 := p.shuffleDraws 256 g0
    let drawn2 := p.shuffleDraws 16 (after^[drawn1] g0)
    readRoundTable (keySchedule p key).rc r = (p.next32 (after^[drawn1 + drawn2 + r.val] g0)).1

/-- R19: a step changes the key material only by a successful SETKEY, wholesale, or by a reset; and a successful SETKEY
always replaces all of it. -/
def Obligations.OnlySetkeyOrResetChangesTheTables : Prop :=
  ∀ s t : State, step s = .next t →
    (t.km = s.km ∨
    (∃ (key : KeyTable) (rest : List HostEvent),
      s.inbox = .command (0x01 :: 0x20 :: 0x00 :: key.toList) :: rest ∧ t.km = ks key) ∨
    (∃ rest : List HostEvent, s.inbox = .reset :: rest)) ∧
    ∀ (key : KeyTable) (rest : List HostEvent),
      s.inbox = .command (0x01 :: 0x20 :: 0x00 :: key.toList) :: rest → t.km = ks key

/-- R21: KEYVALID is 0 after reset; it becomes 1 only at a successful SETKEY, which always sets it; nothing but a reset
makes it 0 again; while it is 0 the block commands of legal length answer KeyNotLoaded. -/
def Obligations.KeyValidChangesOnlyAsStated : Prop :=
  State.reset.keyValid = false ∧
  ∀ s t : State, step s = .next t →
    (s.keyValid = false → t.keyValid = true →
      ∃ (key : KeyTable) (rest : List HostEvent),
        s.inbox = .command (0x01 :: 0x20 :: 0x00 :: key.toList) :: rest) ∧
    (∀ (key : KeyTable) (rest : List HostEvent),
      s.inbox = .command (0x01 :: 0x20 :: 0x00 :: key.toList) :: rest → t.keyValid = true) ∧
    (s.keyValid = true → t.keyValid = false → ∃ rest : List HostEvent, s.inbox = .reset :: rest) ∧
    (∀ rest : List HostEvent, s.inbox = .reset :: rest → t.keyValid = false) ∧
    (∀ b : Block, s.keyValid = false →
      exec (.encblk b.toList) s = .next { s with outbox := s.outbox ++ [[0x07, 0x00, 0x00]] } ∧
      exec (.decblk b.toList) s = .next { s with outbox := s.outbox ++ [[0x07, 0x00, 0x00]] })

/-! ## The block commands -/

/-- R110: ENCBLK with a key: whiten with PK, for rounds 0 to 15 Substitute, Permute, Mix(RC[rnd]), whiten with SK; no
state changes but the response. The tables are consistent, as they are whenever KEYVALID is 1 (R18). -/
def Obligations.EncblkEncryptsTheBlock : Prop :=
  (∀ (s : State) (b : Block), s.keyValid = true → tablesInvertible s.km = true →
    exec (.encblk b.toList) s = .next { s with outbox := s.outbox ++ [0x00 :: 0x10 :: 0x00 ::
      (whiten s.km.sk
        ((List.finRange 16).foldl
          (fun st rnd => mix (readRoundTable s.km.rc rnd) (permute s.km.pt (substitute s.km.sbox st)))
          (whiten s.km.pk b))).toList] }) ∧
  (∀ (s : State) (p : List Byte), p.length ≠ 16 →
    exec (.encblk p) s = .next { s with outbox := s.outbox ++ [[0x02, 0x00, 0x00]] }) ∧
  (∀ (s : State) (p : List Byte), p.length = 16 → s.keyValid = false →
    exec (.encblk p) s = .next { s with outbox := s.outbox ++ [[0x07, 0x00, 0x00]] })

/-- R111: DECBLK with a key: whiten with SK, for rounds 15 down to 0 InvMix(RC[rnd]), InvPermute, InvSubstitute, whiten
with PK; no state changes but the response. The tables are consistent, as they are whenever KEYVALID is 1 (R18). -/
def Obligations.DecblkDecryptsTheBlock : Prop :=
  (∀ (s : State) (b : Block), s.keyValid = true → tablesInvertible s.km = true →
    exec (.decblk b.toList) s = .next { s with outbox := s.outbox ++ [0x00 :: 0x10 :: 0x00 ::
      (whiten s.km.pk
        ((List.finRange 16).reverse.foldl
          (fun st rnd => invSubstitute s.km.isbox (invPermute s.km.pt (invMix (readRoundTable s.km.rc rnd) st)))
          (whiten s.km.sk b))).toList] }) ∧
  (∀ (s : State) (p : List Byte), p.length ≠ 16 →
    exec (.decblk p) s = .next { s with outbox := s.outbox ++ [[0x02, 0x00, 0x00]] }) ∧
  (∀ (s : State) (p : List Byte), p.length = 16 → s.keyValid = false →
    exec (.decblk p) s = .next { s with outbox := s.outbox ++ [[0x07, 0x00, 0x00]] })

/-- R113: a block command, successful or not, changes nothing but the response channel, and its response is a function
of the key state and the payload alone: any other state with the same key answers the same. -/
def Obligations.BlockCommandsChangeNothing : Prop :=
  ∀ (i : Instr) (p : List Byte) (s t : State), i = .encblk p ∨ i = .decblk p → exec i s = .next t →
    ∃ r : Frame, t = { s with outbox := s.outbox ++ [r] } ∧
      ∀ s' : State, s'.keyValid = s.keyValid → s'.km = s.km →
        exec i s' = .next { s' with outbox := s'.outbox ++ [r] }

/-- U3, D26: with a key flag but tables that are no bijections with their inverses, a block command of legal length is
refused. No run from reset meets such a state; that it is a refusal is the spec's treatment (log entry 8). -/
def Obligations.InconsistentTablesAreRefused : Prop :=
  ∀ (s : State) (p : List Byte), p.length = 16 → s.keyValid = true → tablesInvertible s.km = false →
    exec (.encblk p) s = .refused .inconsistentTables ∧ exec (.decblk p) s = .refused .inconsistentTables

/-- R115: decrypting the answer of an encryption gives the block back, in any state with the same key. -/
def Obligations.DecblkUndoesEncblk : Prop :=
  ∀ (s : State) (b : Block), s.keyValid = true → s.KeyInvariant →
    ∃ c : Block,
      exec (.encblk b.toList) s = .next { s with outbox := s.outbox ++ [0x00 :: 0x10 :: 0x00 :: c.toList] } ∧
      ∀ s' : State, s'.keyValid = true → s'.km = s.km →
        exec (.decblk c.toList) s' = .next { s' with outbox := s'.outbox ++ [0x00 :: 0x10 :: 0x00 :: b.toList] }

/-- R116: the converse, and both are bijections on the set of all blocks. -/
def Obligations.EncblkUndoesDecblk : Prop :=
  (∀ (s : State) (c : Block), s.keyValid = true → s.KeyInvariant →
    ∃ b : Block,
      exec (.decblk c.toList) s = .next { s with outbox := s.outbox ++ [0x00 :: 0x10 :: 0x00 :: b.toList] } ∧
      ∀ s' : State, s'.keyValid = true → s'.km = s.km →
        exec (.encblk b.toList) s' = .next { s' with outbox := s'.outbox ++ [0x00 :: 0x10 :: 0x00 :: c.toList] }) ∧
  (∀ km : KeyMaterial, tablesInvertible km = true →
    Function.Bijective (encryptBlock km) ∧ Function.Bijective (decryptBlock km))

/-- R117: a block command is its 50 primitive steps, in the order of the step table. -/
def Obligations.BlockCommandsAreFiftySteps : Prop :=
  ∀ (km : KeyMaterial) (b : Block),
    encryptBlock km b = (List.finRange 50).foldl (fun st u => applyPrimitive km st (encryptStep u)) b ∧
    decryptBlock km b = (List.finRange 50).foldl (fun st u => applyPrimitive km st (decryptStep u)) b

/-- R83, R16: key bytes 16 to 31 reach the datapath only through the tables, and IPT is never read. -/
def Obligations.UpperKeyBytesAreNotWhitening : Prop :=
  ∀ (km km' : KeyMaterial) (b : Block),
    km'.sbox = km.sbox → km'.isbox = km.isbox → km'.pt = km.pt → km'.rc = km.rc →
    (∀ i : Fin 32, i.val < 16 → km'.pk[i] = km.pk[i] ∧ km'.sk[i] = km.sk[i]) →
    encryptBlock km' b = encryptBlock km b ∧ decryptBlock km' b = decryptBlock km b

/-- U9, R96: bits 23 to 31 of the round constants change no result. -/
def Obligations.UpperConstantBitsAreUnused : Prop :=
  ∀ (km : KeyMaterial) (rc' : RoundTable) (b : Block),
    (∀ r : Round, readRoundTable rc' r &&& 0x007FFFFF = readRoundTable km.rc r &&& 0x007FFFFF) →
    encryptBlock { km with rc := rc' } b = encryptBlock km b ∧ decryptBlock { km with rc := rc' } b = decryptBlock km b

/-! ## The round primitives -/

/-- R91: Whiten XORs lane `i` with entry `i mod 32`, which is entry `i`, and undoes itself. -/
def Obligations.WhitenLanes : Prop :=
  ∀ (k : KeyTable) (st : Block),
    (∀ i : Lane, readLane (whiten k st) i = readLane st i ^^^ k[i.val]) ∧ whiten k (whiten k st) = st

/-- R92, R93: each lane is replaced by the table's entry at the lane's old value. -/
def Obligations.SubstituteLanes : Prop :=
  ∀ (t : ByteTable) (st : Block) (i : Lane),
    readLane (substitute t st) i = readByteTable t (readLane st i) ∧
    readLane (invSubstitute t st) i = readByteTable t (readLane st i)

/-- R94: Permute is a scatter: output position `PT[i]` receives the byte of input position `i`; the byte values are
only moved. -/
def Obligations.PermuteScatters : Prop :=
  ∀ (pt : LaneTable) (st : Block), Function.Bijective (readLaneTable pt) →
    (∀ i : Lane, readLane (permute pt st) (readLaneTable pt i) = readLane st i) ∧
    (permute pt st).toList.Perm st.toList

/-- R95: InvPermute is a gather through PT. -/
def Obligations.InvPermuteGathers : Prop :=
  ∀ (pt : LaneTable) (st : Block) (i : Lane), readLane (invPermute pt st) i = readLane st (readLaneTable pt i)

/-- R96: the key byte of lane `i` is bits `i+7` down to `i` of the constant; bits 23 to 31 never matter; each key byte
is the one before it shifted down with one new bit on top. -/
def Obligations.MixKeyByteIsAWindow : Prop :=
  ∀ (rc : Word) (i : Lane),
    (∀ j : Nat, j < 8 → (mixKeyByte rc i).getLsbD j = rc.getLsbD (i.val + j)) ∧
    (mixKeyByte rc i).toNat = rc.toNat / 2 ^ i.val % 256 ∧
    mixKeyByte (rc &&& 0x007FFFFF) i = mixKeyByte rc i ∧
    ∀ h : i.val + 1 < 16, (mixKeyByte rc ⟨i.val + 1, h⟩).toNat =
      (mixKeyByte rc i).toNat / 2 + 128 * (rc.getLsbD (i.val + 8)).toNat

/-- R97: Mix: lane 0 takes its key byte; every other lane takes its key byte and the new value of the lane below. -/
def Obligations.MixUsesNewNeighbours : Prop :=
  ∀ (rc : Word) (st : Block),
    readLane (mix rc st) 0 = readLane st 0 ^^^ mixKeyByte rc 0 ∧
    (∀ (i : Lane) (h : i.val + 1 < 16), readLane (mix rc st) ⟨i.val + 1, h⟩ =
      readLane st ⟨i.val + 1, h⟩ ^^^ mixKeyByte rc ⟨i.val + 1, h⟩ ^^^ readLane (mix rc st) i)

/-- R98: InvMix: lane 0 takes its key byte; every other lane takes the old value of the lane below and its key byte. -/
def Obligations.InvMixUsesOldNeighbours : Prop :=
  ∀ (rc : Word) (st : Block),
    readLane (invMix rc st) 0 = readLane st 0 ^^^ mixKeyByte rc 0 ∧
    (∀ (i : Lane) (h : i.val + 1 < 16), readLane (invMix rc st) ⟨i.val + 1, h⟩ =
      readLane st ⟨i.val + 1, h⟩ ^^^ readLane st i ^^^ mixKeyByte rc ⟨i.val + 1, h⟩)

/-- R100, R95: the inverse pairs, each in both directions, Whiten being its own inverse; InvPermute is also the scatter
through IPT. -/
def Obligations.PrimitivesAreInversePairs : Prop :=
  ∀ (km : KeyMaterial) (rc : Word) (x : Block), tablesInvertible km = true →
    invSubstitute km.isbox (substitute km.sbox x) = x ∧ substitute km.sbox (invSubstitute km.isbox x) = x ∧
    invPermute km.pt (permute km.pt x) = x ∧ permute km.pt (invPermute km.pt x) = x ∧
    invMix rc (mix rc x) = x ∧ mix rc (invMix rc x) = x ∧
    (∀ p : Primitive, applyPrimitive km (applyPrimitive km x p) p.inverse = x ∧
      applyPrimitive km (applyPrimitive km x p.inverse) p = x) ∧
    invPermuteByScatter km.ipt x = invPermute km.pt x

/-- R103: Permute, InvPermute, Mix(0) and InvMix(0) are linear over XOR; Mix(rc), InvMix(rc) and Whiten are affine. -/
def Obligations.MixIsAffine : Prop :=
  ∀ (pt : LaneTable) (k : KeyTable) (rc : Word) (x y : Block), Function.Bijective (readLaneTable pt) →
    let plus : Block → Block → Block := fun a b => Vector.ofFn fun i => readLane a i ^^^ readLane b i
    let zero : Block := Vector.replicate 16 0
    permute pt (plus x y) = plus (permute pt x) (permute pt y) ∧
    invPermute pt (plus x y) = plus (invPermute pt x) (invPermute pt y) ∧
    mix 0 (plus x y) = plus (mix 0 x) (mix 0 y) ∧
    invMix 0 (plus x y) = plus (invMix 0 x) (invMix 0 y) ∧
    mix rc x = plus (mix 0 x) (mix rc zero) ∧
    invMix rc x = plus (invMix 0 x) (invMix rc zero) ∧
    whiten k x = plus x (whiten k zero)

/-- R97 (closed form), R104: lane `i` after Mix is the XOR of lanes 0 to `i` and of key bytes 0 to `i`, and sixteen
applications of Mix(0) give the block back. Both are the spec's own inferences from the pseudocode of R97. -/
def Obligations.MixIsARunningXor : Prop :=
  (∀ (rc : Word) (st : Block) (i : Lane), readLane (mix rc st) i =
    ((List.finRange 16).take (i.val + 1)).foldl (fun acc j => acc ^^^ (readLane st j ^^^ mixKeyByte rc j)) 0) ∧
  ∀ x : Block, (mix 0)^[16] x = x

/-! ## Invariants, runs and reset -/

/-- R18 (b) to (f): every answered step keeps the invariant of the key material, from every state. -/
def Obligations.StepKeepsTheKeyInvariant : Prop :=
  ∀ s t : State, s.KeyInvariant → step s = .next t → t.KeyInvariant

/-- R18: the invariant holds after reset. -/
def Obligations.KeyInvariantHoldsAtReset : Prop := State.reset.KeyInvariant

/-- R18 (a), R19: whenever KEYVALID is 1 the key material is what KS gives for the raw key it holds; every answered step
keeps that. -/
def Obligations.StepKeepsTablesOfOneKey : Prop :=
  ∀ s t : State, (s.keyValid = true → s.km = ks s.km.pk) → step s = .next t →
    (t.keyValid = true → t.km = ks t.km.pk)

/-- R191, R192: from a state with consistent tables and a host that keeps its duties, every step is answered, and the
state after it is such a state again. -/
def Obligations.SafeStatesAreAnswered : Prop :=
  ∀ s : State, s.Safe → ∃ t : State, step s = .next t ∧ t.Safe

/-- R55: the core runs every command frame sent to it, legal or not, in order, and gives one response for each: the
first `k` steps take the first `k` frames and emit the first `k` responses; none is dropped, deferred or answered
twice. -/
def Obligations.OneCommandOneResponse : Prop :=
  ∀ (fs : List Frame) (s : State), s.KeyInvariant → (∀ f ∈ fs, ∀ why, decodeFrame f ≠ .malformed why) →
    s.inbox = fs.map .command →
    ∃ rs : List Frame, rs.length = fs.length ∧
      ∀ k : Nat, k ≤ fs.length → ∃ t : State, core.run k s = .next t ∧
        t.inbox = (fs.drop k).map .command ∧ t.outbox = s.outbox ++ rs.take k

/-- R41, R44: a block command, ENCBLK or DECBLK, uses the tables of the most recent successful SETKEY before it,
whatever block commands and failed SETKEYs come between. -/
def Obligations.BlockCommandsUseTheLatestKey : Prop :=
  ∀ (key : KeyTable) (between : List Instr) (last : Instr) (b result : Block) (s : State),
    ((last = .encblk b.toList ∧ result = encryptBlock (ks key) b) ∨
      (last = .decblk b.toList ∧ result = decryptBlock (ks key) b)) →
    (∀ i ∈ between, i.wellFormed = true ∧ ∀ p : List Byte, i = .setkey p → p.length ≠ 32) →
    s.inbox = (Instr.setkey key.toList :: between ++ [last]).map (fun i => .command (encode i)) →
    ∃ t : State, core.run (between.length + 2) s = .next t ∧
      t.outbox.getLast? = some (0x00 :: 0x10 :: 0x00 :: result.toList)

/-- R30, R181: after reset KEYVALID is 0, no command is in progress and no response is pending; block commands of legal
length answer KeyNotLoaded (R183). -/
def Obligations.ResetLeavesNoKey : Prop :=
  State.reset.keyValid = false ∧ State.reset.inbox = [] ∧ State.reset.outbox = [] ∧
  ∀ b : Block,
    exec (.encblk b.toList) State.reset = .next { State.reset with outbox := [[0x07, 0x00, 0x00]] } ∧
    exec (.decblk b.toList) State.reset = .next { State.reset with outbox := [[0x07, 0x00, 0x00]] }

/-- R180, R181: a reset between commands clears KEYVALID, leaves no response pending, and leaves what the host does next
as it was. -/
def Obligations.ResetEventClearsTheKey : Prop :=
  ∀ (s : State) (rest : List HostEvent), s.inbox = .reset :: rest →
    ∃ t : State, step s = .next t ∧ t.keyValid = false ∧ t.outbox = [] ∧ t.inbox = rest

/-- R30, U2, U7: while KEYVALID is 0 the contents of the seven tables cannot be observed: two cores that differ only in
them give the same responses for as long as they run, or stop for the same reason. -/
def Obligations.UnspecifiedTablesAreUnobservable : Prop :=
  ∀ (n : Nat) (s : State) (km' : KeyMaterial), s.keyValid = false →
    observe (core.run n s) = observe (core.run n ({ s with km := km' } : State))

/-! ## The host Codec -/

/-- R131: padInput appends P = 16 - (len mod 16) bytes of value P, always 1 to 16 of them. -/
def Obligations.PadInputAppendsThePad : Prop :=
  ∀ m : List Byte, ∃ n : Nat, n = 16 - m.length % 16 ∧ 1 ≤ n ∧ n ≤ 16 ∧
    padInput m = m ++ List.replicate n (BitVec.ofNat 8 n) ∧
    (padInput m).length % 16 = 0 ∧ 16 ≤ (padInput m).length

/-- R132: removePadding fails with EmptyInput on nothing, with InvalidPadding when the last byte P is over 16 or over the
length, and else drops the last P bytes without looking at the others. -/
def Obligations.RemovePaddingReadsTheLastByte : Prop :=
  removePadding [] = .error .emptyInput ∧
  ∀ (d : List Byte) (p : Byte),
    (p.toNat > 16 ∨ p.toNat > d.length + 1 → removePadding (d ++ [p]) = .error .invalidPadding) ∧
    (p.toNat ≤ 16 → p.toNat ≤ d.length + 1 →
      removePadding (d ++ [p]) = .ok ((d ++ [p]).take (d.length + 1 - p.toNat)))

/-- R138: removePadding undoes padInput. -/
def Obligations.RemovePaddingUndoesPadInput : Prop :=
  ∀ m : List Byte, removePadding (padInput m) = .ok m

/-- R133, R118: encrypt pads, splits into 16-byte blocks, has each encrypted on its own and concatenates in order;
without a key it fails with KeyNotLoaded and returns nothing. -/
def Obligations.EncryptIsBlockwise : Prop :=
  (∀ (s : State) (m : List Byte), s.keyValid = true → tablesInvertible s.km = true →
    ∃ (bs : List Block) (t : State), padInput m = (bs.map Vector.toList).flatten ∧
      hostEncrypt m s = .next (.ok (bs.map fun b => (encryptBlock s.km b).toList).flatten, t) ∧
      t.km = s.km ∧ t.keyValid = true ∧
      ((bs.map fun b => (encryptBlock s.km b).toList).flatten).length = m.length + 16 - m.length % 16) ∧
  (∀ (s : State) (m : List Byte), s.keyValid = false →
    ∃ t : State, hostEncrypt m s = .next (.error .keyNotLoaded, t) ∧ t.km = s.km ∧ t.keyValid = false)

/-- R134: decrypt fails with InvalidCiphertextSize before any DECBLK, or has each block decrypted and removes the padding
once, at the end; without a key the first DECBLK fails and nothing is returned. -/
def Obligations.DecryptIsBlockwise : Prop :=
  (∀ (s : State) (c : List Byte), c.length % 16 ≠ 0 →
    hostDecrypt c s = .next (.error .invalidCiphertextSize, s)) ∧
  (∀ (s : State) (bs : List Block), s.keyValid = true → tablesInvertible s.km = true →
    ∃ t : State, hostDecrypt (bs.map Vector.toList).flatten s =
      .next (removePadding (bs.map fun b => (decryptBlock s.km b).toList).flatten, t) ∧
      t.km = s.km ∧ t.keyValid = true) ∧
  (∀ (s : State) (b : Block) (bs : List Block), s.keyValid = false →
    ∃ t : State, hostDecrypt ((b :: bs).map Vector.toList).flatten s = .next (.error .keyNotLoaded, t) ∧
      t.km = s.km ∧ t.keyValid = false)

/-- R138: for every key and every message, decrypting the encryption gives the message back: under the key that is
installed, and under any key that the host installs first. -/
def Obligations.DecryptUndoesEncrypt : Prop :=
  (∀ (s : State) (m : List Byte), s.keyValid = true → s.KeyInvariant →
    ∃ (c : List Byte) (t u : State), hostEncrypt m s = .next (.ok c, t) ∧ hostDecrypt c t = .next (.ok m, u)) ∧
  ∀ (s : State) (key : KeyTable) (m : List Byte),
    ∃ (c : List Byte) (t u v : State), hostSetKey key.toList s = .next (.ok [], t) ∧
      hostEncrypt m t = .next (.ok c, u) ∧ hostDecrypt c u = .next (.ok m, v)

/-- R135: text and bytes are the same 8-bit values, element by element. -/
def Obligations.TextIsBytes : Prop :=
  (∀ t : Text, bytesToText (textToBytes t) = t) ∧ (∀ bs : List Byte, textToBytes (bytesToText bs) = bs) ∧
  ∀ (t : Text) (k : Nat), (textToBytes t)[k]? = (t[k]?).map Character.code

/-- R136: two digits per byte from "0123456789ABCDEF", the high four bits first. -/
def Obligations.BytesToHexDigits : Prop :=
  let alphabet : List Byte :=
    [0x30, 0x31, 0x32, 0x33, 0x34, 0x35, 0x36, 0x37, 0x38, 0x39, 0x41, 0x42, 0x43, 0x44, 0x45, 0x46]
  bytesToHex [] = [] ∧
  ∀ (b : Byte) (bs : List Byte), (bytesToHex (b :: bs)).map Character.code =
    alphabet.getD (b.toNat / 16) 0 :: alphabet.getD (b.toNat % 16) 0 :: (bytesToHex bs).map Character.code

/-- R137: complete pairs of hexadecimal digits, of either case, in order; an odd last character is dropped unexamined;
any other character in a complete pair is HexParseError. -/
def Obligations.HexToBytesPairs : Prop :=
  (∀ (c : Character) (v : Nat), hexValue c = some v ↔
    (v < 10 ∧ c.code.toNat = 0x30 + v) ∨ (10 ≤ v ∧ v < 16 ∧ (c.code.toNat = 0x41 + (v - 10) ∨
      c.code.toNat = 0x61 + (v - 10)))) ∧
  (∀ (a b : Character) (rest : Text), hexValue a = none ∨ hexValue b = none →
    hexToBytes (a :: b :: rest) = .error .hexParseError) ∧
  (∀ (a b : Character) (h l : Nat) (rest : Text), hexValue a = some h → hexValue b = some l →
    (∀ bs : List Byte, hexToBytes rest = .ok bs →
      hexToBytes (a :: b :: rest) = .ok (BitVec.ofNat 8 (16 * h + l) :: bs)) ∧
    (∀ e : Status, hexToBytes rest = .error e → hexToBytes (a :: b :: rest) = .error e)) ∧
  (∀ (t : Text) (c : Character), t.length % 2 = 0 → hexToBytes (t ++ [c]) = hexToBytes t) ∧
  hexToBytes [] = .ok []

/-- R139: hexToBytes undoes bytesToHex on every byte sequence. -/
def Obligations.HexToBytesUndoesBytesToHex : Prop :=
  ∀ bs : List Byte, hexToBytes (bytesToHex bs) = .ok bs

/-- R59: the line written for a command that fits a frame assembles to the command's frame, and spaces in the
hexadecimal change nothing. -/
def Obligations.AssemblyOfTheWrittenLine : Prop :=
  ∀ i : Instr, i.wellFormed = true →
    assemble (showCommand i) = some (encode i) ∧
    ∀ spaced : Text, spaced.filter (fun c => c.code != 0x20) = bytesToHex i.payload →
      assemble (mnemonicText i ++ ⟨0x20⟩ :: spaced) = some (encode i)
end

