-- ==== Sys2Proof/Laws/State.lean ====
section
/-! SUPPORT. One lemma per field per update of State, so that no later proof unfolds a record update. -/

namespace Sys2Proof.Machine

section KeyValid
variable (s : State)
@[simp] theorem setKeyValid_keyValid : (setKeyValid s).keyValid = true := rfl
@[simp] theorem setKeyValid_km : (setKeyValid s).km = s.km := rfl
@[simp] theorem setKeyValid_inbox : (setKeyValid s).inbox = s.inbox := rfl
@[simp] theorem setKeyValid_outbox : (setKeyValid s).outbox = s.outbox := rfl
@[simp] theorem setKeyValid_draws : (setKeyValid s).draws = s.draws := rfl
@[simp] theorem clearKeyValid_keyValid : (clearKeyValid s).keyValid = false := rfl
@[simp] theorem clearKeyValid_km : (clearKeyValid s).km = s.km := rfl
@[simp] theorem clearKeyValid_inbox : (clearKeyValid s).inbox = s.inbox := rfl
@[simp] theorem clearKeyValid_outbox : (clearKeyValid s).outbox = s.outbox := rfl
@[simp] theorem clearKeyValid_draws : (clearKeyValid s).draws = s.draws := rfl
end KeyValid

section InstallKey
variable (km : KeyMaterial) (s : State)
@[simp] theorem installKey_keyValid : (installKey km s).keyValid = s.keyValid := rfl
@[simp] theorem installKey_km : (installKey km s).km = km := rfl
@[simp] theorem installKey_inbox : (installKey km s).inbox = s.inbox := rfl
@[simp] theorem installKey_outbox : (installKey km s).outbox = s.outbox := rfl
@[simp] theorem installKey_draws : (installKey km s).draws = s.draws := rfl
end InstallKey

section Respond
variable (e : Status) (p : List Byte) (s : State)
@[simp] theorem respond_keyValid : (respond e p s).keyValid = s.keyValid := rfl
@[simp] theorem respond_km : (respond e p s).km = s.km := rfl
@[simp] theorem respond_inbox : (respond e p s).inbox = s.inbox := rfl
@[simp] theorem respond_outbox : (respond e p s).outbox = s.outbox ++ [responseFrame e p] := rfl
@[simp] theorem respond_draws : (respond e p s).draws = s.draws := rfl
end Respond

section ResetCore
variable (s : State)
@[simp] theorem resetCore_keyValid : (resetCore s).keyValid = false := rfl
@[simp] theorem resetCore_km : (resetCore s).km = unspecifiedTables s.draws := rfl
@[simp] theorem resetCore_inbox : (resetCore s).inbox = s.inbox := rfl
@[simp] theorem resetCore_outbox : (resetCore s).outbox = [] := rfl
@[simp] theorem resetCore_draws : (resetCore s).draws = s.draws + 1 := rfl
end ResetCore

section SendNext
variable (f : Frame) (s : State)
@[simp] theorem sendNext_keyValid : (sendNext f s).keyValid = s.keyValid := rfl
@[simp] theorem sendNext_km : (sendNext f s).km = s.km := rfl
@[simp] theorem sendNext_inbox : (sendNext f s).inbox = .command f :: s.inbox := rfl
@[simp] theorem sendNext_outbox : (sendNext f s).outbox = s.outbox := rfl
@[simp] theorem sendNext_draws : (sendNext f s).draws = s.draws := rfl
end SendNext

section Reset
@[simp] theorem reset_keyValid : State.reset.keyValid = false := rfl
@[simp] theorem reset_inbox : State.reset.inbox = [] := rfl
@[simp] theorem reset_outbox : State.reset.outbox = [] := rfl
end Reset

/-- Two states with equal fields are equal. -/
theorem state_eq {s t : State} (hv : s.keyValid = t.keyValid) (hk : s.km = t.km) (hi : s.inbox = t.inbox)
    (ho : s.outbox = t.outbox) (hd : s.draws = t.draws) : s = t := by
  cases s; cases t; simp_all

/-- Taking the event just sent gives back the state it was sent to. -/
theorem sendNext_take (f : Frame) (s : State) : { sendNext f s with inbox := s.inbox } = s := rfl

end Sys2Proof.Machine
end

