-- ==== Sys2Proof/Laws/Operands.lean ====
section
/-! SUPPORT. Lanes, tables and payloads read back what was written; when the tables are inverses of each other. -/

namespace Sys2Proof.Machine

/-- Two blocks with equal lanes are equal. -/
theorem block_ext {a b : Block} (h : ∀ i, readLane a i = readLane b i) : a = b := by
  apply Vector.ext
  intro i hi
  exact h ⟨i, hi⟩

@[simp] theorem readLane_ofFn (f : Lane → Byte) (i : Lane) : readLane (Vector.ofFn f) i = f i := by
  simp [readLane]

theorem readLane_writeLane (st : Block) (i j : Lane) (v : Byte) :
    readLane (writeLane st i v) j = if i = j then v else readLane st j := by
  simp only [readLane, writeLane, Vector.getElem_set, Fin.ext_iff]

@[simp] theorem readLane_writeLane_same (st : Block) (i : Lane) (v : Byte) : readLane (writeLane st i v) i = v := by
  simp [readLane_writeLane]

theorem readLane_writeLane_other {i j : Lane} (st : Block) (v : Byte) (h : i ≠ j) :
    readLane (writeLane st i v) j = readLane st j := by
  simp [readLane_writeLane, h]

/-- R23: a lane number is below 16, said with the numeral for arithmetic. -/
theorem lane_lt (i : Lane) : i.val < 16 := i.isLt

/-- R91, R96: on a lane number the `mod 32` is the identity. -/
theorem lane_mod_32 (i : Lane) : i.val % 32 = i.val := Nat.mod_eq_of_lt (Nat.lt_trans i.isLt (by decide))

/-- A payload is a block exactly when it has 16 bytes (R36). -/
theorem asBlock_toList (b : Block) : asBlock b.toList = some b := by
  rw [asBlock, dif_pos b.length_toList]; rfl

theorem asBlock_eq_none {p : List Byte} : asBlock p = none ↔ p.length ≠ 16 := by
  simp [asBlock]

theorem asBlock_eq_some {p : List Byte} {b : Block} : asBlock p = some b ↔ p = b.toList := by
  constructor
  · intro h
    simp only [asBlock] at h
    split at h
    · cases h; rfl
    · cases h
  · rintro rfl; exact asBlock_toList b

/-- A payload is a key exactly when it has 32 bytes (R36). -/
theorem asKey_toList (k : KeyTable) : asKey k.toList = some k := by
  rw [asKey, dif_pos k.length_toList]; rfl

theorem asKey_eq_none {p : List Byte} : asKey p = none ↔ p.length ≠ 32 := by
  simp [asKey]

theorem asKey_eq_some {p : List Byte} {k : KeyTable} : asKey p = some k ↔ p = k.toList := by
  constructor
  · intro h
    simp only [asKey] at h
    split at h
    · cases h; rfl
    · cases h
  · rintro rfl; exact asKey_toList k

/-- `tablesInvertible` said of every byte and every lane (R18 (d), (f)). -/
theorem tablesInvertible_iff {km : KeyMaterial} : tablesInvertible km = true ↔
    (∀ x : Byte, readByteTable km.isbox (readByteTable km.sbox x) = x) ∧
    (∀ i : Lane, readLaneTable km.ipt (readLaneTable km.pt i) = i) := by
  simp only [tablesInvertible, Bool.and_eq_true, List.all_eq_true, List.mem_finRange, beq_iff_eq, true_implies]
  constructor
  · rintro ⟨h, g⟩
    exact ⟨fun x => h x.toFin, g⟩
  · rintro ⟨h, g⟩
    exact ⟨fun x => h (BitVec.ofFin x), g⟩

/-- R18 (c), (d): on 256 values a left inverse is a two-sided inverse, and `SBOX` is a bijection. -/
theorem sbox_bijective {km : KeyMaterial} (h : tablesInvertible km = true) :
    Function.Bijective (readByteTable km.sbox) :=
  Finite.injective_iff_bijective.mp (Function.LeftInverse.injective (tablesInvertible_iff.mp h).1)

theorem sbox_isbox {km : KeyMaterial} (h : tablesInvertible km = true) (x : Byte) :
    readByteTable km.sbox (readByteTable km.isbox x) = x := by
  obtain ⟨y, rfl⟩ := (sbox_bijective h).2 x
  rw [(tablesInvertible_iff.mp h).1]

/-- R18 (e), (f): likewise `PT` and `IPT` on 16 lanes. -/
theorem pt_bijective {km : KeyMaterial} (h : tablesInvertible km = true) :
    Function.Bijective (readLaneTable km.pt) :=
  Finite.injective_iff_bijective.mp (Function.LeftInverse.injective (tablesInvertible_iff.mp h).2)

theorem pt_ipt {km : KeyMaterial} (h : tablesInvertible km = true) (i : Lane) :
    readLaneTable km.pt (readLaneTable km.ipt i) = i := by
  obtain ⟨y, rfl⟩ := (pt_bijective h).2 i
  rw [(tablesInvertible_iff.mp h).2]

end Sys2Proof.Machine
end

