-- ==== Sys2Proof/Laws/Datapath.lean ====
section
/-! SUPPORT. Each primitive lane by lane, and the inverse pairs (41_round_primitives.md R91 to R100). -/

namespace Sys2Proof.Machine

@[simp] theorem readLane_whiten (k : KeyTable) (st : Block) (i : Lane) :
    readLane (whiten k st) i = readLane st i ^^^ readKeyTable k i := by simp [whiten]

@[simp] theorem readLane_substitute (t : ByteTable) (st : Block) (i : Lane) :
    readLane (substitute t st) i = readByteTable t (readLane st i) := by simp [substitute]

@[simp] theorem readLane_invSubstitute (t : ByteTable) (st : Block) (i : Lane) :
    readLane (invSubstitute t st) i = readByteTable t (readLane st i) := by simp [invSubstitute]

@[simp] theorem readLane_invPermute (pt : LaneTable) (st : Block) (i : Lane) :
    readLane (invPermute pt st) i = readLane st (readLaneTable pt i) := by simp [invPermute]

/-- The scatter loop over any list of lanes: a lane that is the target of a lane of the list ends with that lane's
byte, when the targets are distinct. -/
theorem readLane_scatter {pt : LaneTable} (hpt : Function.Injective (readLaneTable pt)) (st : Block) :
    ∀ (is : List Lane) (tmp : Block) (i : Lane), i ∈ is →
      readLane (is.foldl (fun tmp i => writeLane tmp (readLaneTable pt i) (readLane st i)) tmp) (readLaneTable pt i)
        = readLane st i := by
  intro is
  induction is using List.reverseRecOn with
  | nil => simp
  | append_singleton is j ih =>
    intro tmp i hi
    simp only [List.foldl_append, List.foldl_cons, List.foldl_nil, readLane_writeLane]
    by_cases hij : j = i
    · simp [hij]
    · have : readLaneTable pt j ≠ readLaneTable pt i := fun h => hij (hpt h)
      simp only [this, if_false]
      exact ih tmp i (by simpa [Ne.symm hij] using hi)

/-- R94: output position `PT[i]` receives the byte of input position `i`. -/
theorem readLane_permute {pt : LaneTable} (hpt : Function.Injective (readLaneTable pt)) (st : Block) (i : Lane) :
    readLane (permute pt st) (readLaneTable pt i) = readLane st i :=
  readLane_scatter hpt st _ _ i (List.mem_finRange i)

/-- R97, loop invariant: after lanes 0 to `n-1`, lane `i` below `n` holds its constant, its old value and its new
lower neighbour, and the lanes from `n` up are untouched. -/
theorem mix_prefix (rc : Word) (st : Block) : ∀ n, (hn : n ≤ 16) →
    let t := ((List.finRange 16).take n).foldl (mixLane rc) st
    (∀ i : Lane, i.val < n → readLane t i = readLane st i ^^^ mixKeyByte rc i ^^^
      (if h : i.val = 0 then 0 else readLane t ⟨i.val - 1, by omega⟩)) ∧
    (∀ i : Lane, n ≤ i.val → readLane t i = readLane st i) := by
  intro n
  induction n with
  | zero => simp
  | succ n ih =>
    intro hn
    have hn' : n < 16 := by omega
    have ih := ih (by omega)
    have htake : (List.finRange 16).take (n + 1) = (List.finRange 16).take n ++ [(⟨n, hn'⟩ : Lane)] := by
      rw [List.take_add_one]
      simp [List.getElem?_eq_getElem (l := List.finRange 16) (i := n) (by simp; omega)]
    simp only [htake, List.foldl_append, List.foldl_cons, List.foldl_nil]
    generalize ((List.finRange 16).take n).foldl (mixLane rc) st = t at ih ⊢
    obtain ⟨hlow, hhigh⟩ := ih
    have hother : ∀ j : Lane, j.val ≠ n → readLane (mixLane rc t ⟨n, hn'⟩) j = readLane t j := by
      intro j hj
      have hne : (⟨n, hn'⟩ : Lane) ≠ j := fun h => hj (by rw [← h])
      unfold mixLane
      simp only
      split <;> simp [readLane_writeLane, hne]
    constructor
    · intro i hi
      by_cases hin : i.val = n
      · obtain rfl : i = ⟨n, hn'⟩ := Fin.ext hin
        by_cases h0 : n = 0
        · subst h0
          simpa [mixLane] using hhigh 0 (by simp)
        · have hne : (⟨n, hn'⟩ : Lane) ≠ ⟨n - 1, by omega⟩ := by
            intro h; simp [Fin.ext_iff] at h; omega
          rw [dif_neg (by simpa using h0), hother ⟨n - 1, by omega⟩ (by simp; omega)]
          simp [mixLane, h0, readLane_writeLane, hne, hhigh ⟨n, hn'⟩ (by simp)]
      · rw [hother i hin, hlow i (by omega)]
        by_cases h0 : i.val = 0
        · simp [h0]
        · simp only [h0, dif_neg, not_false_eq_true]
          rw [hother ⟨i.val - 1, by omega⟩ (by simp; omega)]
    · intro i hi
      rw [hother i (by omega), hhigh i (by omega)]

/-- R97: lane 0 of Mix. -/
theorem readLane_mix_zero (rc : Word) (st : Block) :
    readLane (mix rc st) 0 = readLane st 0 ^^^ mixKeyByte rc 0 := by
  have h := (mix_prefix rc st 16 (le_refl _)).1 0 (by decide)
  rw [List.take_of_length_le (by simp)] at h
  simpa [mix] using h

/-- R97: every other lane takes its constant and the new value of the lane below. -/
theorem readLane_mix_succ (rc : Word) (st : Block) (i : Lane) (hi : i.val ≠ 0) :
    readLane (mix rc st) i = readLane st i ^^^ mixKeyByte rc i ^^^ readLane (mix rc st) ⟨i.val - 1, by omega⟩ := by
  have h := (mix_prefix rc st 16 (le_refl _)).1 i i.isLt
  rw [List.take_of_length_le (by simp), dif_neg hi] at h
  exact h

/-- R98, loop invariant: after lanes 15 down to `n`, the lanes from `n` up hold their final value and the lanes below
are untouched. -/
theorem invMix_suffix (rc : Word) (st : Block) : ∀ m n, (hn : n + m = 16) →
    let t := ((List.finRange 16).drop n).reverse.foldl (invMixLane rc) st
    (∀ i : Lane, n ≤ i.val → readLane t i = readLane st i ^^^ mixKeyByte rc i ^^^
      (if h : i.val = 0 then 0 else readLane st ⟨i.val - 1, by omega⟩)) ∧
    (∀ i : Lane, i.val < n → readLane t i = readLane st i) := by
  intro m
  induction m with
  | zero => 
    intro n hn
    have : n = 16 := by omega
    subst this
    refine ⟨fun i hi => absurd (lane_lt i) (by omega), fun i _ => ?_⟩
    rw [List.drop_eq_nil_of_le (by simp)]; rfl
  | succ m ih =>
    intro n hn
    have hn' : n < 16 := by omega
    have ih := ih (n + 1) (by omega)
    have hdrop : (List.finRange 16).drop n = (⟨n, hn'⟩ : Lane) :: (List.finRange 16).drop (n + 1) := by
      rw [List.drop_eq_getElem_cons (by simp; omega)]
      simp
    simp only [hdrop, List.reverse_cons, List.foldl_append, List.foldl_cons, List.foldl_nil]
    generalize ((List.finRange 16).drop (n + 1)).reverse.foldl (invMixLane rc) st = t at ih ⊢
    obtain ⟨hhigh, hlow⟩ := ih
    have hother : ∀ j : Lane, j.val ≠ n → readLane (invMixLane rc t ⟨n, hn'⟩) j = readLane t j := by
      intro j hj
      have hne : (⟨n, hn'⟩ : Lane) ≠ j := fun h => hj (by rw [← h])
      unfold invMixLane
      simp only
      split <;> simp [readLane_writeLane, hne]
    constructor
    · intro i hi
      by_cases hin : i.val = n
      · obtain rfl : i = ⟨n, hn'⟩ := Fin.ext hin
        by_cases h0 : n = 0
        · subst h0
          simpa [invMixLane] using hlow 0 (by simp)
        · rw [dif_neg (by simpa using h0)]
          simp only [invMixLane, h0, if_false, readLane_writeLane_same]
          rw [hlow ⟨n, hn'⟩ (by simp), hlow ⟨n - 1, by omega⟩ (by simp)]
          simp only [BitVec.xor_assoc]
          rw [BitVec.xor_comm (mixKeyByte _ _)]
      · rw [hother i hin, hhigh i (by omega)]
    · intro i hi
      rw [hother i (by omega), hlow i (by omega)]

/-- R98, closed form: lane 0 has no neighbour. -/
theorem readLane_invMix_zero (rc : Word) (st : Block) :
    readLane (invMix rc st) 0 = readLane st 0 ^^^ mixKeyByte rc 0 := by
  have h := (invMix_suffix rc st 16 0 (by omega)).1 0 (by decide)
  simpa [invMix] using h

/-- R98, closed form: each other lane takes the old value of the lane below. -/
theorem readLane_invMix_succ (rc : Word) (st : Block) (i : Lane) (hi : i.val ≠ 0) :
    readLane (invMix rc st) i = readLane st i ^^^ mixKeyByte rc i ^^^ readLane st ⟨i.val - 1, by omega⟩ := by
  have h := (invMix_suffix rc st 16 0 (by omega)).1 i (by omega)
  rw [dif_neg hi] at h
  exact h

/-- R100: Whiten undoes itself. -/
theorem whiten_whiten (k : KeyTable) (st : Block) : whiten k (whiten k st) = st :=
  block_ext fun i => by simp

theorem invSubstitute_substitute {km : KeyMaterial} (h : tablesInvertible km = true) (st : Block) :
    invSubstitute km.isbox (substitute km.sbox st) = st :=
  block_ext fun i => by simp [(tablesInvertible_iff.mp h).1]

theorem substitute_invSubstitute {km : KeyMaterial} (h : tablesInvertible km = true) (st : Block) :
    substitute km.sbox (invSubstitute km.isbox st) = st :=
  block_ext fun i => by simp [sbox_isbox h]

theorem invPermute_permute {pt : LaneTable} (h : Function.Bijective (readLaneTable pt)) (st : Block) :
    invPermute pt (permute pt st) = st :=
  block_ext fun i => by simp [readLane_permute h.1]

theorem permute_invPermute {pt : LaneTable} (h : Function.Bijective (readLaneTable pt)) (st : Block) :
    permute pt (invPermute pt st) = st :=
  block_ext fun i => by
    obtain ⟨j, rfl⟩ := h.2 i
    simp [readLane_permute h.1]

theorem invMix_mix (rc : Word) (st : Block) : invMix rc (mix rc st) = st :=
  block_ext fun i => by
    by_cases hi : i.val = 0
    · have : i = 0 := Fin.ext hi
      subst this
      simp [readLane_invMix_zero, readLane_mix_zero]
    · rw [readLane_invMix_succ _ _ _ hi, readLane_mix_succ _ _ _ hi]
      generalize readLane (mix rc st) _ = x
      generalize mixKeyByte rc i = k
      rw [BitVec.xor_assoc, BitVec.xor_assoc, BitVec.xor_assoc, ← BitVec.xor_assoc x, BitVec.xor_comm x k,
        BitVec.xor_assoc k, BitVec.xor_self, BitVec.xor_zero, BitVec.xor_self, BitVec.xor_zero]

theorem mix_injective (rc : Word) : Function.Injective (mix rc) :=
  Function.LeftInverse.injective (invMix_mix rc)

theorem mix_invMix (rc : Word) (st : Block) : mix rc (invMix rc st) = st := by
  suffices ∀ n, ∀ i : Lane, i.val = n → readLane (mix rc (invMix rc st)) i = readLane st i from
    block_ext fun i => this i.val i rfl
  intro n
  induction n with
  | zero =>
    intro i hi
    have : i = 0 := Fin.ext hi
    subst this
    simp [readLane_invMix_zero, readLane_mix_zero]
  | succ n ih =>
    intro i hi
    have hi0 : i.val ≠ 0 := by omega
    rw [readLane_mix_succ _ _ _ hi0, readLane_invMix_succ _ _ _ hi0, ih _ (by simp; omega)]
    generalize readLane st ⟨i.val - 1, _⟩ = x
    generalize mixKeyByte rc i = k
    rw [BitVec.xor_assoc, BitVec.xor_assoc, BitVec.xor_assoc, ← BitVec.xor_assoc x, BitVec.xor_comm x k,
      BitVec.xor_assoc k, BitVec.xor_self, BitVec.xor_zero, BitVec.xor_self, BitVec.xor_zero]

/-- R91: only the first 16 entries of a key table reach the block. -/
theorem whiten_congr {k k' : KeyTable} (h : ∀ i : Fin 32, i.val < 16 → k'[i] = k[i]) (st : Block) :
    whiten k' st = whiten k st :=
  block_ext fun i => by
    have := h ⟨i.val, Nat.lt_trans (lane_lt i) (by decide)⟩ (lane_lt i)
    simp only [Fin.getElem_fin] at this
    simp only [readLane_whiten, readKeyTable, Config.keyIndexMod, lane_mod_32, this]

/-- R96: the mask 0x007FFFFF takes nothing from any of the 16 windows. -/
theorem mixKeyByte_mask (rc : Word) (i : Lane) : mixKeyByte (rc &&& 0x007FFFFF) i = mixKeyByte rc i := by
  apply BitVec.eq_of_getLsbD_eq
  intro j hj
  simp only [mixKeyByte, BitVec.getLsbD_setWidth, BitVec.getLsbD_and, BitVec.getLsbD_ushiftRight, Config.shiftMod,
    Config.mixMask]
  rw [lane_mod_32]
  have hlane := lane_lt i
  have hbit : ∀ n, n < 23 → BitVec.getLsbD (0x007FFFFF : Word) n = true := by decide
  rw [hbit _ (by omega)]; simp

/-- R96: constants that agree on bits 0 to 22 give the same windows. -/
theorem mixKeyByte_congr {rc rc' : Word} (h : rc' &&& 0x007FFFFF = rc &&& 0x007FFFFF) (i : Lane) :
    mixKeyByte rc' i = mixKeyByte rc i := by
  rw [← mixKeyByte_mask rc', h, mixKeyByte_mask]

theorem mix_congr {rc rc' : Word} (h : rc' &&& 0x007FFFFF = rc &&& 0x007FFFFF) : mix rc' = mix rc := by
  have : mixLane rc' = mixLane rc := by funext st i; simp only [mixLane, mixKeyByte_congr h]
  funext st; rw [mix, mix, this]

theorem invMix_congr {rc rc' : Word} (h : rc' &&& 0x007FFFFF = rc &&& 0x007FFFFF) : invMix rc' = invMix rc := by
  have : invMixLane rc' = invMixLane rc := by funext st i; simp only [invMixLane, mixKeyByte_congr h]
  funext st; rw [invMix, invMix, this]

/-- R97: with a zero constant Mix is the chain alone. -/
theorem mixKeyByte_zero (i : Lane) : mixKeyByte 0#32 i = 0#8 := by revert i; decide

end Sys2Proof.Machine
end

