-- ==== Sys2Proof/Laws/BlockOps.lean ====
section
/-! SUPPORT. A round undoes a round, so 16 rounds undo 16 rounds (42_block_ops.md R115, R116); what a block command can
answer. -/

namespace Sys2Proof.Machine

theorem decryptRound_encryptRound {km : KeyMaterial} (h : tablesInvertible km = true) (st : Block) (rnd : Round) :
    decryptRound km (encryptRound km st rnd) rnd = st := by
  rw [decryptRound, encryptRound, invMix_mix, invPermute_permute (pt_bijective h), invSubstitute_substitute h]

theorem encryptRound_decryptRound {km : KeyMaterial} (h : tablesInvertible km = true) (st : Block) (rnd : Round) :
    encryptRound km (decryptRound km st rnd) rnd = st := by
  rw [decryptRound, encryptRound, substitute_invSubstitute h, permute_invPermute (pt_bijective h), mix_invMix]

/-- Folding `g` backwards undoes folding `f` forwards when one `g` undoes one `f`. -/
theorem foldl_reverse_undo {α β : Type} {f g : α → β → α} (h : ∀ a b, g (f a b) b = a) :
    ∀ (l : List β) (a : α), l.reverse.foldl g (l.foldl f a) = a := by
  intro l
  induction l with
  | nil => simp
  | cons b l ih => intro a; simp [ih, h]

/-- The function behind R115. -/
theorem decryptBlock_encryptBlock {km : KeyMaterial} (h : tablesInvertible km = true) (b : Block) :
    decryptBlock km (encryptBlock km b) = b := by
  rw [decryptBlock, encryptBlock, whiten_whiten, foldl_reverse_undo (decryptRound_encryptRound h), whiten_whiten]

/-- The function behind R116. -/
theorem encryptBlock_decryptBlock {km : KeyMaterial} (h : tablesInvertible km = true) (b : Block) :
    encryptBlock km (decryptBlock km b) = b := by
  have := foldl_reverse_undo (encryptRound_decryptRound h) (List.finRange Config.rounds).reverse (whiten km.sk b)
  rw [List.reverse_reverse] at this
  rw [decryptBlock, encryptBlock, whiten_whiten, this, whiten_whiten]

/-- A block command on a good block: what it answers, in one place (R112). -/
theorem blockCommand_ok {f : KeyMaterial → Block → Block} {b : Block} {s : State} (hv : s.keyValid = true)
    (ht : tablesInvertible s.km = true) :
    blockCommand f b.toList s = .next (respond .ok (f s.km b).toList s) := by
  simp [blockCommand, asBlock_toList, hv, ht, blockBytesOf]

theorem blockCommand_badLength {f : KeyMaterial → Block → Block} {p : List Byte} {s : State} (h : p.length ≠ 16) :
    blockCommand f p s = .next (respond .invalidBlockSize [] s) := by
  simp [blockCommand, asBlock_eq_none.mpr h, raise]

theorem blockCommand_noKey {f : KeyMaterial → Block → Block} {p : List Byte} {s : State} (h : p.length = 16)
    (hv : s.keyValid = false) : blockCommand f p s = .next (respond .keyNotLoaded [] s) := by
  obtain ⟨b, hb⟩ := Option.ne_none_iff_exists'.mp (fun hn => asBlock_eq_none.mp hn h)
  simp [blockCommand, hb, hv, raise]

/-- Everything a block command can do: it answers, changing nothing else, or refuses inconsistent tables. -/
theorem blockCommand_cases (f : KeyMaterial → Block → Block) (p : List Byte) (s : State) :
    (p.length ≠ 16 ∧ blockCommand f p s = .next (respond .invalidBlockSize [] s)) ∨
    (p.length = 16 ∧ s.keyValid = false ∧ blockCommand f p s = .next (respond .keyNotLoaded [] s)) ∨
    (s.keyValid = true ∧ tablesInvertible s.km = true ∧ ∃ b : Block, p = b.toList ∧
      blockCommand f p s = .next (respond .ok (f s.km b).toList s)) ∨
    (p.length = 16 ∧ s.keyValid = true ∧ tablesInvertible s.km = false ∧
      blockCommand f p s = .refused .inconsistentTables) := by
  by_cases hl : p.length = 16
  · obtain ⟨b, hb⟩ := Option.ne_none_iff_exists'.mp (fun hn => asBlock_eq_none.mp hn hl)
    cases hv : s.keyValid
    · exact .inr (.inl ⟨hl, rfl, blockCommand_noKey hl hv⟩)
    · cases ht : tablesInvertible s.km
      · exact .inr (.inr (.inr ⟨hl, rfl, rfl, by simp [blockCommand, hb, hv, ht]⟩))
      · obtain rfl := asBlock_eq_some.mp hb
        exact .inr (.inr (.inl ⟨rfl, rfl, b, rfl, blockCommand_ok hv ht⟩))
  · exact .inl ⟨hl, blockCommand_badLength hl⟩

/-- R117: the step table of an encryption, written out. -/
theorem encryptStep_schedule : (List.finRange 50).map encryptStep =
    .whitenPk :: ((List.finRange 16).flatMap (fun k => [.substitute, .permute, .mix k]) ++ [.whitenSk]) := by decide

/-- R117: the step table of a decryption, written out. -/
theorem decryptStep_schedule : (List.finRange 50).map decryptStep =
    .whitenSk :: ((List.finRange 16).reverse.flatMap (fun k => [.invMix k, .invPermute, .invSubstitute]) ++
      [.whitenPk]) := by decide

/-- R100: the pairs are pairs. -/
@[simp] theorem inverse_inverse (p : Primitive) : p.inverse.inverse = p := by cases p <;> rfl

/-- R115, R117: DECBLK's steps are the inverses of ENCBLK's, in reverse order. -/
theorem decryptStep_mirror : ∀ u : Fin 50, decryptStep u = (encryptStep u.rev).inverse := by decide

end Sys2Proof.Machine
end

