-- ==== Sys2Proof/Laws/Decode.lean ====
section
/-! SUPPORT. The length field and the opcode read back what the encoder wrote (30_encoding.md R51, R52, R57). -/

namespace Sys2Proof

/-- R52: the two length bytes of a length up to 65535 give it back. -/
theorem lenField_len {n : Nat} (h : n ≤ Config.maxPayload) : lenField (lenLow n) (lenHigh n) = n := by
  simp only [lenField, lenLow, lenHigh, BitVec.toNat_ofNat, Config.maxPayload] at *
  omega

/-- R52: the two length bytes are determined by the length. -/
theorem len_lenField (lo hi : Byte) : lenLow (lenField lo hi) = lo ∧ lenHigh (lenField lo hi) = hi := by
  have hl := lo.isLt
  have hh := hi.isLt
  constructor <;> apply BitVec.eq_of_toNat_eq <;>
    simp only [lenField, lenLow, lenHigh, BitVec.toNat_ofNat] <;> omega

theorem lenField_le (lo hi : Byte) : lenField lo hi ≤ Config.maxPayload := by
  have hl := lo.isLt
  have hh := hi.isLt
  simp only [lenField, Config.maxPayload]
  omega

/-- R57: which opcode byte gives which command. -/
theorem decodeOpcode_eq_command {opc : Byte} {p : List Byte} {i : Instr} :
    decodeOpcode opc p = .command i ↔ opc = i.opcode ∧ p = i.payload := by
  simp only [decodeOpcode, opcodeTable, List.find?_cons, List.find?_nil]
  constructor
  · intro h
    split at h
    · rename_i r hr
      split at hr
      · rename_i ho
        cases hr; cases h
        exact ⟨(beq_iff_eq.mp ho).symm, rfl⟩
      · split at hr
        · rename_i ho
          cases hr; cases h
          exact ⟨(beq_iff_eq.mp ho).symm, rfl⟩
        · split at hr
          · rename_i ho
            cases hr; cases h
            exact ⟨(beq_iff_eq.mp ho).symm, rfl⟩
          · cases hr
    · cases h
  · rintro ⟨rfl, rfl⟩
    cases i <;> rfl

/-- R58: an opcode byte that is none of the three is illegal. -/
theorem decodeOpcode_illegal {opc : Byte} (p : List Byte) (h1 : opc ≠ 0x01) (h2 : opc ≠ 0x02) (h3 : opc ≠ 0x03) :
    decodeOpcode opc p = .illegal opc p := by
  have n1 : (1#8 == opc) = false := by simpa using Ne.symm h1
  have n2 : (2#8 == opc) = false := by simpa using Ne.symm h2
  have n3 : (3#8 == opc) = false := by simpa using Ne.symm h3
  simp [decodeOpcode, opcodeTable, n1, n2, n3]

/-- Every opcode byte either names a command or is illegal. -/
theorem decodeOpcode_cases (opc : Byte) (p : List Byte) :
    (∃ i : Instr, opc = i.opcode ∧ p = i.payload ∧ decodeOpcode opc p = .command i) ∨
    (opc ≠ 0x01 ∧ opc ≠ 0x02 ∧ opc ≠ 0x03 ∧ decodeOpcode opc p = .illegal opc p) := by
  by_cases h1 : opc = 0x01
  · exact .inl ⟨.setkey p, h1, rfl, decodeOpcode_eq_command.mpr ⟨h1, rfl⟩⟩
  by_cases h2 : opc = 0x02
  · exact .inl ⟨.encblk p, h2, rfl, decodeOpcode_eq_command.mpr ⟨h2, rfl⟩⟩
  by_cases h3 : opc = 0x03
  · exact .inl ⟨.decblk p, h3, rfl, decodeOpcode_eq_command.mpr ⟨h3, rfl⟩⟩
  exact .inr ⟨h1, h2, h3, decodeOpcode_illegal p h1 h2 h3⟩

/-- R54: a frame is well formed exactly when its payload has the length its header says. -/
theorem decodeFrame_cons (opc lo hi : Byte) (p : List Byte) :
    decodeFrame (opc :: lo :: hi :: p) =
      if p.length = lenField lo hi then decodeOpcode opc p
      else if p.length < lenField lo hi then .malformed .cutShort else .malformed .overLong := by
  simp only [decodeFrame]
  split
  · rw [if_neg (by omega)]
  · split
    · rw [if_neg (by omega)]
    · rw [if_pos (by omega)]

/-- A frame written with its own length decodes by its opcode (R51, R57). -/
theorem decodeFrame_commandFrame (opc : Byte) {p : List Byte} (h : p.length ≤ Config.maxPayload) :
    decodeFrame (commandFrame opc p) = decodeOpcode opc p := by
  rw [commandFrame, decodeFrame_cons, lenField_len h, if_pos rfl]

/-- A frame that decodes to a command carries its opcode and its payload. -/
theorem decodeFrame_command_inv {opc lo hi : Byte} {p : List Byte} {i : Instr}
    (h : decodeFrame (opc :: lo :: hi :: p) = .command i) : opc = i.opcode ∧ p = i.payload := by
  rw [decodeFrame_cons] at h
  split at h
  · exact decodeOpcode_eq_command.mp h
  · split at h <;> cases h

/-- A frame that decodes to an illegal opcode has one (R58). -/
theorem decodeFrame_illegal_inv {opc lo hi o : Byte} {p q : List Byte}
    (h : decodeFrame (opc :: lo :: hi :: p) = .illegal o q) : opc ≠ 0x01 ∧ opc ≠ 0x02 ∧ opc ≠ 0x03 := by
  rw [decodeFrame_cons] at h
  split at h
  · rcases decodeOpcode_cases opc p with ⟨i, -, -, h'⟩ | ⟨h1, h2, h3, -⟩
    · rw [h'] at h; cases h
    · exact ⟨h1, h2, h3⟩
  · split at h <;> cases h

theorem wellFormed_iff {i : Instr} : i.wellFormed = true ↔ i.payload.length ≤ Config.maxPayload := by
  cases i <;> simp [Instr.wellFormed, payloadFits, Instr.payload]

/-- A malformed frame has no header, or a payload of another length than its header says (R54). -/
theorem decodeFrame_malformed_iff {f : Frame} : (∃ why, decodeFrame f = .malformed why) ↔
    ∀ opc lo hi p, f = opc :: lo :: hi :: p → p.length ≠ lenField lo hi := by
  constructor
  · rintro ⟨why, h⟩ opc lo hi p rfl heq
    rw [decodeFrame_cons, if_pos heq] at h
    rcases decodeOpcode_cases opc p with ⟨i, -, -, h'⟩ | ⟨-, -, -, h'⟩ <;> rw [h'] at h <;> cases h
  · intro h
    match f, h with
    | opc :: lo :: hi :: p, h =>
      have := h opc lo hi p rfl
      rw [decodeFrame_cons, if_neg this]
      split
      · exact ⟨_, rfl⟩
      · exact ⟨_, rfl⟩
    | [], _ => exact ⟨_, rfl⟩
    | [_], _ => exact ⟨_, rfl⟩
    | [_, _], _ => exact ⟨_, rfl⟩

/-- R51: the frame of a SETKEY with a whole key. -/
theorem decodeFrame_setkey (key : KeyTable) :
    decodeFrame (0x01 :: 0x20 :: 0x00 :: key.toList) = .command (.setkey key.toList) := by
  rw [decodeFrame_cons, if_pos (by simp [lenField])]; exact decodeOpcode_eq_command.mpr ⟨rfl, rfl⟩

/-- R51: and it is the only frame that decodes to it. -/
theorem decodeFrame_setkey_inv {f : Frame} {key : KeyTable} (h : decodeFrame f = .command (.setkey key.toList)) :
    f = 0x01 :: 0x20 :: 0x00 :: key.toList := by
  match f, h with
  | opc :: lo :: hi :: p, h =>
    have hh := h
    obtain ⟨rfl, rfl⟩ := decodeFrame_command_inv h
    rw [decodeFrame_cons] at hh
    split at hh
    · rename_i hl
      have := len_lenField lo hi
      rw [← hl] at this
      simp [Instr.payload] at this
      rw [← this.1, ← this.2]; rfl
    · split at hh <;> cases hh
  | [], h => cases h
  | [_], h => cases h
  | [_, _], h => cases h

end Sys2Proof
end

