-- ==== Sys2Proof/Laws/KeySchedule.lean ====
section
/-! SUPPORT. What every key schedule has, whatever its hash, generator and shuffle (40_keyschedule.md R73 to R80). -/

namespace Sys2Proof.Machine

/-- A table as a function. -/
abbrev tableFn {n : Nat} (t : Vector (Fin n) n) (i : Fin n) : Fin n := t[i.val]'i.isLt

/-- Swapping two entries keeps a table a bijection. -/
theorem swap_injective {n : Nat} {t : Vector (Fin n) n} (h : Function.Injective (tableFn t)) (i j : Fin n) :
    Function.Injective (tableFn (t.swap i.val j.val i.isLt j.isLt)) := by
  have : tableFn (t.swap i.val j.val i.isLt j.isLt) = tableFn t ∘ Equiv.swap i j := by
    funext k
    simp only [tableFn, Vector.getElem_swap, Function.comp, Equiv.swap_apply_def, Fin.ext_iff]
    split
    · rfl
    · split <;> rfl
  rw [this]
  exact h.comp (Equiv.swap i j).injective

theorem applySwaps_injective {n : Nat} (swaps : List (Fin n × Fin n)) :
    ∀ {t : Vector (Fin n) n}, Function.Injective (tableFn t) → Function.Injective (tableFn (applySwaps swaps t)) := by
  induction swaps with
  | nil => intro t h; exact h
  | cons ij swaps ih => intro t h; exact ih (swap_injective h ij.1 ij.2)

theorem identitySequence_injective (n : Nat) : Function.Injective (tableFn (identitySequence n)) := by
  intro i j h
  simpa [tableFn, identitySequence] using h

/-- R76, R78: whatever the shuffle is, its result on the identity sequence is a bijection. -/
theorem shuffle_injective (p : KeyScheduleParts) (n g : Nat) :
    Function.Injective (tableFn (shuffle p (identitySequence n) g).1) :=
  applySwaps_injective _ (identitySequence_injective n)

/-- The loop that writes an inverse: an index of the list is read back through the table. -/
theorem invertTable_loop {n : Nat} {t : Vector (Fin n) n} (ht : Function.Injective (tableFn t)) :
    ∀ (is : List (Fin n)) (u : Vector (Fin n) n) (i : Fin n), i ∈ is →
      tableFn (is.foldl (fun u i => u.set (t[i.val]'i.isLt).val i (t[i.val]'i.isLt).isLt) u) (tableFn t i) = i := by
  intro is
  induction is using List.reverseRecOn with
  | nil => simp
  | append_singleton is j ih =>
    intro u i hi
    simp only [List.foldl_append, List.foldl_cons, List.foldl_nil, tableFn, Vector.getElem_set]
    by_cases hij : j = i
    · simp [hij]
    · have : (t[j.val]'j.isLt).val ≠ (t[i.val]'i.isLt).val := fun h => hij (ht (Fin.ext h))
      simp only [this, if_false]
      exact ih u i (by simpa [Ne.symm hij] using hi)

/-- R77, R78: `u[t[i]] = i`. -/
theorem invertTable_spec {n : Nat} {t : Vector (Fin n) n} (ht : Function.Injective (tableFn t)) (i : Fin n) :
    tableFn (invertTable t) (tableFn t i) = i :=
  invertTable_loop ht _ _ i (List.mem_finRange i)

/-- R73, R74. -/
theorem keySchedule_pk (p : KeyScheduleParts) (key : KeyTable) : (keySchedule p key).pk = key := rfl

theorem keySchedule_sk (p : KeyScheduleParts) (key : KeyTable) :
    (keySchedule p key).sk = key.map (· ^^^ 0x36) := rfl

theorem keySchedule_secondaryMatches (p : KeyScheduleParts) (key : KeyTable) :
    secondaryMatches (keySchedule p key) = true := by
  simp [secondaryMatches, keySchedule_pk, keySchedule_sk]

/-- R80 `KS_isbox_inv` and `KS_ipt_inv`, with R76 and R78: the tables of any key are invertible. -/
theorem keySchedule_invertible (p : KeyScheduleParts) (key : KeyTable) :
    tablesInvertible (keySchedule p key) = true := by
  rw [tablesInvertible_iff]
  constructor
  · intro x
    have h := invertTable_spec (shuffle_injective p 256 (p.init (p.hash key))) x.toFin
    simp only [readByteTable, keySchedule, Vector.getElem_map]
    exact congrArg BitVec.ofFin h
  · intro i
    exact invertTable_spec (shuffle_injective p 16 _) i

theorem ks_invertible (key : KeyTable) : tablesInvertible (ks key) = true := keySchedule_invertible _ key
theorem ks_secondaryMatches (key : KeyTable) : secondaryMatches (ks key) = true := keySchedule_secondaryMatches _ key
theorem ks_pk (key : KeyTable) : (ks key).pk = key := rfl

/-- SETKEY on a key (R70). -/
theorem execSetkey_ok (key : KeyTable) (s : State) :
    execSetkey key.toList s = .next (respond .ok [] (setKeyValid (installKey (ks key) s))) := by
  simp [execSetkey, asKey_toList]

/-- SETKEY on any other length (R71). -/
theorem execSetkey_badLength {p : List Byte} (h : p.length ≠ 32) (s : State) :
    execSetkey p s = .next (respond .invalidKeySize [] s) := by
  simp [execSetkey, asKey_eq_none.mpr h, raise]

/-- Everything SETKEY can do. -/
theorem execSetkey_cases (p : List Byte) (s : State) :
    (p.length ≠ 32 ∧ execSetkey p s = .next (respond .invalidKeySize [] s)) ∨
    (∃ key : KeyTable, p = key.toList ∧
      execSetkey p s = .next (respond .ok [] (setKeyValid (installKey (ks key) s)))) := by
  by_cases hl : p.length = 32
  · obtain ⟨k, hk⟩ := Option.ne_none_iff_exists'.mp (fun hn => asKey_eq_none.mp hn hl)
    obtain rfl := asKey_eq_some.mp hk
    exact .inr ⟨k, rfl, execSetkey_ok k s⟩
  · exact .inl ⟨hl, execSetkey_badLength hl s⟩

/-- R79: after `k` outputs the generator has advanced `k` times. -/
theorem drawWords_state (p : KeyScheduleParts) (k g : Nat) :
    (drawWords p k g).2 = (fun g => (p.next32 g).2)^[k] g := by
  induction k with
  | zero => rfl
  | succ k ih => rw [Function.iterate_succ_apply', ← ih]; rfl

/-- R79: output `r` of a run of outputs is the one at state `r` of the stream. -/
theorem drawWords_get (p : KeyScheduleParts) (k g r : Nat) (h : r < k) :
    (drawWords p k g).1[r] = (p.next32 ((fun g => (p.next32 g).2)^[r] g)).1 := by
  induction k with
  | zero => omega
  | succ k ih =>
    by_cases hr : r = k
    · subst hr
      simp [drawWords, ← drawWords_state]
    · have hlt : r < k := by omega
      rw [← ih hlt]
      simp only [drawWords]
      rw [Vector.getElem_push_lt]

end Sys2Proof.Machine
end

