-- ==== Sys2Proof/Laws/Ops.lean ====
section
/-! SUPPORT. The response frames as bytes (30_encoding.md R53, 60_exceptions.md R158). -/

namespace Sys2Proof.Machine

/-- A response without payload: `STATUS`, `RLEN = 0`. -/
theorem responseFrame_nil (e : Status) : responseFrame e [] = [statusCode e, 0x00, 0x00] := rfl

/-- The response of a successful block command: `RLEN = 16` and the block. -/
theorem responseFrame_block (b : Block) : responseFrame .ok b.toList = 0x00 :: 0x10 :: 0x00 :: b.toList := by
  simp [responseFrame, statusCode, lenLow, lenHigh, Config.blockBytes]

/-- Only `OK` has the code 0x00 (R151). -/
theorem statusCode_eq_zero {e : Status} : statusCode e = 0x00 ↔ e = .ok := by
  cases e <;> decide

theorem statusCode_injective : Function.Injective statusCode := by
  intro a b h
  cases a <;> cases b <;> first | rfl | exact absurd h (by decide)

/-- A response appends its frame and changes nothing else. -/
theorem respond_eq (e : Status) (p : List Byte) (s : State) :
    respond e p s = { s with outbox := s.outbox ++ [responseFrame e p] } := rfl

theorem raise_eq (e : Status) (s : State) :
    raise e s = .next { s with outbox := s.outbox ++ [[statusCode e, 0x00, 0x00]] } := rfl

end Sys2Proof.Machine
end

