-- ==== Sys2Proof/Laws/Step.lean ====
section
/-! SUPPORT. Everything an instruction and a step can do, said once. -/

namespace Sys2Proof.Machine

/-- Everything an instruction can do: it raises an error, installs a key, answers a block, or refuses inconsistent
tables. -/
theorem exec_cases (i : Instr) (s : State) :
    (∃ e : Status, e ≠ .ok ∧ e ∈ [Status.invalidKeySize, .invalidBlockSize, .keyNotLoaded] ∧
      exec i s = .next (respond e [] s)) ∨
    (∃ key : KeyTable, i = .setkey key.toList ∧
      exec i s = .next (respond .ok [] (setKeyValid (installKey (ks key) s)))) ∨
    (s.keyValid = true ∧ tablesInvertible s.km = true ∧
      ∃ b : Block, (i = .encblk b.toList ∧ exec i s = .next (respond .ok (encryptBlock s.km b).toList s)) ∨
        (i = .decblk b.toList ∧ exec i s = .next (respond .ok (decryptBlock s.km b).toList s))) ∨
    (s.keyValid = true ∧ tablesInvertible s.km = false ∧ exec i s = .refused .inconsistentTables) := by
  cases i with
  | setkey p =>
    rcases execSetkey_cases p s with ⟨-, h⟩ | ⟨key, rfl, h⟩
    · exact .inl ⟨_, by decide, by decide, h⟩
    · exact .inr (.inl ⟨key, rfl, h⟩)
  | encblk p =>
    rcases blockCommand_cases encryptBlock p s with ⟨-, h⟩ | ⟨-, -, h⟩ | ⟨hv, ht, b, rfl, h⟩ | ⟨-, hv, ht, h⟩
    · exact .inl ⟨_, by decide, by decide, h⟩
    · exact .inl ⟨_, by decide, by decide, h⟩
    · exact .inr (.inr (.inl ⟨hv, ht, b, .inl ⟨rfl, h⟩⟩))
    · exact .inr (.inr (.inr ⟨hv, ht, h⟩))
  | decblk p =>
    rcases blockCommand_cases decryptBlock p s with ⟨-, h⟩ | ⟨-, -, h⟩ | ⟨hv, ht, b, rfl, h⟩ | ⟨-, hv, ht, h⟩
    · exact .inl ⟨_, by decide, by decide, h⟩
    · exact .inl ⟨_, by decide, by decide, h⟩
    · exact .inr (.inr (.inl ⟨hv, ht, b, .inr ⟨rfl, h⟩⟩))
    · exact .inr (.inr (.inr ⟨hv, ht, h⟩))

theorem step_idle {s : State} (h : s.inbox = []) : step s = .next s := by
  simp [step, acceptNext, h, idle]

theorem step_reset {s : State} {rest : List HostEvent} (h : s.inbox = .reset :: rest) :
    step s = .next (resetCore { s with inbox := rest }) := by
  simp [step, acceptNext, h, acceptEvent]

theorem step_overlapped {s : State} {f g : Frame} {rest : List HostEvent} (h : s.inbox = .overlapped f g :: rest) :
    step s = .fault .unserialisedCommands := by
  simp [step, acceptNext, h, acceptEvent]

theorem step_frame {s : State} {f : Frame} {rest : List HostEvent} (h : s.inbox = .command f :: rest) :
    step s = acceptFrame f { s with inbox := rest } := by
  simp [step, acceptNext, h, acceptEvent]

theorem acceptFrame_command {f : Frame} {i : Instr} (h : decodeFrame f = .command i) (s : State) :
    acceptFrame f s = exec i s := by
  simp [acceptFrame, h]

theorem acceptFrame_illegal {f : Frame} {opc : Byte} {p : List Byte} (h : decodeFrame f = .illegal opc p) (s : State) :
    acceptFrame f s = .next (respond .illegalCommand [] s) := by
  simp [acceptFrame, h, raise]

theorem acceptFrame_malformed {f : Frame} {why : FrameError} (h : decodeFrame f = .malformed why) (s : State) :
    acceptFrame f s = .refused (.malformedFrame why) := by
  simp [acceptFrame, h]

theorem step_sendNext (f : Frame) (s : State) : step (sendNext f s) = acceptFrame f s :=
  step_frame (s := sendNext f s) rfl

/-- Everything a step that is answered can do: wait, reset, run a command, or answer an illegal opcode. -/
theorem step_next_cases {s t : State} (h : step s = .next t) :
    (s.inbox = [] ∧ t = s) ∨
    (∃ rest, s.inbox = .reset :: rest ∧ t = resetCore { s with inbox := rest }) ∨
    (∃ f rest i, s.inbox = .command f :: rest ∧ decodeFrame f = .command i ∧
      exec i { s with inbox := rest } = .next t) ∨
    (∃ f rest opc p, s.inbox = .command f :: rest ∧ decodeFrame f = .illegal opc p ∧
      t = respond .illegalCommand [] { s with inbox := rest }) := by
  cases hi : s.inbox with
  | nil => rw [step_idle hi] at h; cases h; exact .inl ⟨rfl, rfl⟩
  | cons e rest =>
    cases e with
    | reset => rw [step_reset hi] at h; cases h; exact .inr (.inl ⟨rest, rfl, rfl⟩)
    | overlapped f g => rw [step_overlapped hi] at h; cases h
    | command f =>
      rw [step_frame hi] at h
      cases hd : decodeFrame f with
      | command i =>
        rw [acceptFrame_command hd] at h
        exact .inr (.inr (.inl ⟨f, rest, i, rfl, hd, h⟩))
      | illegal opc p =>
        rw [acceptFrame_illegal hd] at h; cases h
        exact .inr (.inr (.inr ⟨f, rest, opc, p, rfl, hd, rfl⟩))
      | malformed why => rw [acceptFrame_malformed hd] at h; cases h

end Sys2Proof.Machine
end

