-- ==== Sys2Proof/Laws/Codec.lean ====
section
/-! SUPPORT. What the host reads back from the core, and its own functions (43_host_codec.md). -/

namespace Sys2Proof.Machine

/-- R151: the codes are distinct, so the host reads back the error kind that the core sent. -/
theorem statusOfCode_statusCode {e : Status} (h : e ∈ coreStatuses) : statusOfCode (statusCode e) = some e := by
  revert e; decide

/-- The host's reading of a status and a payload. -/
def replyOf (e : Status) (p : List Byte) : Reply (List Byte) := if e = .ok then .ok p else .error e

/-- R53: the host reads back a response frame. -/
theorem readResponse_responseFrame {e : Status} (he : e ∈ coreStatuses) {p : List Byte}
    (h : p.length ≤ Config.maxPayload) :
    readResponse (responseFrame e p) = some (replyOf e p) := by
  simp only [readResponse, responseFrame, lenField_len h, if_pos, statusOfCode_statusCode he]
  cases e <;> rfl

/-- One command of the host, when the core answers with one response frame. -/
theorem issue_of_exec {i : Instr} {s u : State} {e : Status} {p : List Byte}
    (hd : decodeFrame (encode i) = .command i) (hp : p.length ≤ Config.maxPayload)
    (he : e ∈ coreStatuses) (ho : u.outbox = s.outbox) (h : exec i s = .next (respond e p u)) :
    issue i s = .next (replyOf e p, respond e p u) := by
  simp only [issue, step_sendNext, acceptFrame_command hd, h, respond_outbox, ho, List.drop_left, List.map_cons,
    List.map_nil, readResponse_responseFrame he hp]

theorem splitBlocks_length (k : Nat) (bs : List Byte) : (splitBlocks k bs).length = k := by
  induction k generalizing bs with
  | zero => rfl
  | succ k ih => simp [splitBlocks, ih]

/-- R133: the blocks of a message of `16 k` bytes have 16 bytes each and make it up again. -/
theorem splitBlocks_spec (k : Nat) (bs : List Byte) (h : bs.length = 16 * k) :
    (∀ b ∈ splitBlocks k bs, b.length = 16) ∧ (splitBlocks k bs).flatten = bs := by
  induction k generalizing bs with
  | zero => simp_all [splitBlocks]
  | succ k ih =>
    have := ih (bs.drop 16) (by simp; omega)
    constructor
    · intro b hb
      simp only [splitBlocks, List.mem_cons] at hb
      rcases hb with rfl | hb
      · simp [Config.blockBytes]; omega
      · exact this.1 b hb
    · simp only [splitBlocks, List.flatten_cons, Config.blockBytes, this.2, List.take_append_drop]

/-- Splitting what blocks of 16 bytes make up gives the blocks back. -/
theorem splitBlocks_flatten (bss : List (List Byte)) (h : ∀ b ∈ bss, b.length = 16) :
    splitBlocks bss.length bss.flatten = bss := by
  induction bss with
  | nil => rfl
  | cons b bss ih =>
    have hb := h b (by simp)
    simp only [List.length_cons, List.flatten_cons, splitBlocks, Config.blockBytes]
    rw [← hb, List.take_left, List.drop_left, ih fun c hc => h c (List.mem_cons_of_mem _ hc)]

/-- R131: the padded length is the next multiple of 16. -/
theorem padInput_length (m : List Byte) : (padInput m).length = 16 * (m.length / 16 + 1) := by
  simp only [padInput, Config.padBlock, List.length_append, List.length_replicate]
  omega

/-- R133: `16 k` bytes are `k` blocks, and splitting finds them. -/
theorem exists_blocks (k : Nat) (m : List Byte) (h : m.length = 16 * k) :
    ∃ bs : List Block, bs.length = k ∧ splitBlocks k m = bs.map Vector.toList ∧
      m = (bs.map Vector.toList).flatten := by
  obtain ⟨h1, h2⟩ := splitBlocks_spec k m h
  have lift : ∀ l : List (List Byte), (∀ b ∈ l, b.length = 16) → ∃ bs : List Block, l = bs.map Vector.toList := by
    intro l
    induction l with
    | nil => intro _; exact ⟨[], rfl⟩
    | cons b l ih =>
      intro h
      obtain ⟨bs, rfl⟩ := ih fun c hc => h c (List.mem_cons_of_mem _ hc)
      exact ⟨⟨b.toArray, by simpa using h b (by simp)⟩ :: bs, by simp⟩
  obtain ⟨bs, hb⟩ := lift _ h1
  refine ⟨bs, ?_, hb, by rw [← hb, h2]⟩
  have := splitBlocks_length k m
  rw [hb] at this; simpa using this

/-- R60, R133: when one command maps each block, issuing the commands of a list of blocks concatenates the results. -/
theorem issueAll_map {c : Block → Instr} {f : KeyMaterial → Block → Block}
    (h : ∀ s b, s.keyValid = true → tablesInvertible s.km = true →
      issue (c b) s = .next (.ok (f s.km b).toList, respond .ok (f s.km b).toList s))
    (bs : List Block) : ∀ s : State, s.keyValid = true → tablesInvertible s.km = true →
    ∃ t : State, issueAll (bs.map c) s = .next (.ok (bs.map fun b => (f s.km b).toList).flatten, t) ∧
      t.km = s.km ∧ t.keyValid = true := by
  induction bs with
  | nil => intro s hv ht; exact ⟨s, rfl, rfl, hv⟩
  | cons b bs ih =>
    intro s hv ht
    obtain ⟨t, h1, h2, h3⟩ := ih (respond .ok (f s.km b).toList s) hv ht
    refine ⟨t, ?_, h2, h3⟩
    simp only [respond_km] at h1
    simp [issueAll, h s b hv ht, h1]

/-- R136, R137: a digit reads back as its value. -/
theorem hexValue_hexDigit : ∀ n < 16, hexValue (hexDigit n) = some n := by decide

end Sys2Proof.Machine
end

