-- ==== Sys2Proof/Laws/PerInstr.lean ====
section
/-! SUPPORT. Facts about every instruction as syntax, one lemma per constructor. -/

namespace Sys2Proof.Laws.HeaderBytes

/-- R51, R56: the frame of an instruction is its opcode byte, the two length bytes and the payload, and so has
`3 + LEN` bytes. -/
def Statement (i : Instr) : Prop :=
  encode i = i.opcode :: lenLow i.payload.length :: lenHigh i.payload.length :: i.payload ∧
    (encode i).length = 3 + i.payload.length

theorem setkey (payload : List Byte) : Statement (.setkey payload) :=
  ⟨rfl, by simp [encode, commandFrame]; omega⟩

theorem encblk (payload : List Byte) : Statement (.encblk payload) :=
  ⟨rfl, by simp [encode, commandFrame]; omega⟩

theorem decblk (payload : List Byte) : Statement (.decblk payload) :=
  ⟨rfl, by simp [encode, commandFrame]; omega⟩

end Sys2Proof.Laws.HeaderBytes
end

