-- ==== Sys2Proof/Laws/Run.lean ====
section
/-! SUPPORT. Runs of the core, one step at a time, and what every answered command has in common. -/

namespace Sys2Proof.Machine

theorem exec_setkey (p : List Byte) (s : State) : exec (.setkey p) s = execSetkey p s := rfl

theorem exec_encblk (p : List Byte) (s : State) : exec (.encblk p) s = blockCommand encryptBlock p s := rfl

theorem exec_decblk (p : List Byte) (s : State) : exec (.decblk p) s = blockCommand decryptBlock p s := rfl

/-- R51: a block, and a key, fit a frame. -/
theorem encblk_wellFormed (b : Block) : (Instr.encblk b.toList).wellFormed = true := by
  simp [Instr.wellFormed, payloadFits, Config.maxPayload, Config.blockBytes]

theorem decblk_wellFormed (b : Block) : (Instr.decblk b.toList).wellFormed = true := by
  simp [Instr.wellFormed, payloadFits, Config.maxPayload, Config.blockBytes]

theorem setkey_wellFormed (k : KeyTable) : (Instr.setkey k.toList).wellFormed = true := by
  simp [Instr.wellFormed, payloadFits, Config.maxPayload, Config.keyBytes]

/-- One step of a run of any machine behind the host's interface. -/
theorem core_run_next (M : Host.Core) {s t : M.State} (h : M.step s = .next t) (k : Nat) :
    M.run (k + 1) s = M.run k t := by
  simp only [Host.Core.run, h]

theorem run_next {s t : State} (h : step s = .next t) (k : Nat) : core.run (k + 1) s = core.run k t :=
  core_run_next core h k

theorem core_run_fault (M : Host.Core) {s : M.State} {r : M.Fault} (h : M.step s = .fault r) (k : Nat) :
    M.run (k + 1) s = .fault r := by
  simp only [Host.Core.run, h]

theorem run_fault {s : State} {r : Fault} (h : step s = .fault r) (k : Nat) : core.run (k + 1) s = .fault r :=
  core_run_fault core h k

theorem core_run_refused (M : Host.Core) {s : M.State} {r : M.Refusal} (h : M.step s = .refused r) (k : Nat) :
    M.run (k + 1) s = .refused r := by
  simp only [Host.Core.run, h]

theorem run_refused {s : State} {r : Refusal} (h : step s = .refused r) (k : Nat) :
    core.run (k + 1) s = .refused r :=
  core_run_refused core h k

/-- From consistent tables every instruction answers with one frame, leaves the events to come alone and keeps the
tables consistent (R55, R18). -/
theorem exec_answers {i : Instr} {s : State} (h : s.KeyInvariant) :
    ∃ t r, exec i s = .next t ∧ t.inbox = s.inbox ∧ t.KeyInvariant ∧ t.outbox = s.outbox ++ [r] := by
  rcases exec_cases i s with ⟨e, -, -, hh⟩ | ⟨k, rfl, hh⟩ | ⟨-, -, b, ⟨-, hh⟩ | ⟨-, hh⟩⟩ | ⟨hv, ht, -⟩
  · exact ⟨_, _, hh, rfl, h, rfl⟩
  · exact ⟨_, _, hh, rfl, fun _ => ⟨ks_invertible k, ks_secondaryMatches k⟩, rfl⟩
  · exact ⟨_, _, hh, rfl, h, rfl⟩
  · exact ⟨_, _, hh, rfl, h, rfl⟩
  · rw [(h hv).1] at ht; cases ht

/-- What a block command answers depends on the key state and the payload alone (R113). -/
theorem blockCommand_respects {f : KeyMaterial → Block → Block} {p : List Byte} {s u : State}
    (h : blockCommand f p s = .next u) :
    ∃ r : Frame, u.outbox = s.outbox ++ [r] ∧
      ∀ t : State, t.keyValid = s.keyValid → t.km = s.km → t.inbox = s.inbox → t.draws = s.draws →
        blockCommand f p t = .next { u with outbox := t.outbox ++ [r] } := by
  rcases blockCommand_cases f p s with ⟨hl, hh⟩ | ⟨hl, hv, hh⟩ | ⟨hv, ht, b, rfl, hh⟩ | ⟨-, -, -, hh⟩ <;>
    rw [hh] at h <;> cases h
  · refine ⟨_, rfl, fun t h1 h2 h3 h4 => ?_⟩
    rw [blockCommand_badLength hl]; exact congrArg _ (state_eq h1 h2 h3 rfl h4)
  · refine ⟨_, rfl, fun t h1 h2 h3 h4 => ?_⟩
    rw [blockCommand_noKey hl (h1 ▸ hv)]; exact congrArg _ (state_eq h1 h2 h3 rfl h4)
  · refine ⟨_, rfl, fun t h1 h2 h3 h4 => ?_⟩
    rw [blockCommand_ok (h1 ▸ hv) (h2 ▸ ht)]; exact congrArg _ (state_eq h1 h2 h3 (by simp [h2]) h4)

/-- What an instruction answers does not depend on the responses before it (R158). -/
theorem exec_respects {i : Instr} {s u : State} (h : exec i s = .next u) :
    ∃ r : Frame, u.outbox = s.outbox ++ [r] ∧
      ∀ t : State, t.keyValid = s.keyValid → t.km = s.km → t.inbox = s.inbox → t.draws = s.draws →
        exec i t = .next { u with outbox := t.outbox ++ [r] } := by
  cases i with
  | setkey p =>
    rcases execSetkey_cases p s with ⟨hl, hh⟩ | ⟨k, rfl, hh⟩ <;> rw [exec, hh] at h <;> cases h
    · refine ⟨_, rfl, fun t h1 h2 h3 h4 => ?_⟩
      rw [exec, execSetkey_badLength hl]; exact congrArg _ (state_eq h1 h2 h3 rfl h4)
    · refine ⟨_, rfl, fun t h1 h2 h3 h4 => ?_⟩
      rw [exec, execSetkey_ok]; exact congrArg _ (state_eq rfl rfl h3 rfl h4)
  | encblk p => exact blockCommand_respects h
  | decblk p => exact blockCommand_respects h

end Sys2Proof.Machine
end

