-- ==== Sys2Proof/Tests/Slice0.lean ====
section
/-! SUPPORT. The model's own tests. Expected values are those of spec/95_test_vectors.md (V..) and of the spec's rules;
a `witness_` theorem shows values that meet all the hypotheses of one obligation. -/

namespace Sys2Proof.Tests

open Sys2Proof.Machine

/-! ## Key material and states of section 2 -/

/-- Section 2.1, `K1`. -/
def key1 : KeyTable := Vector.ofFn fun i => BitVec.ofNat 8 i.val

def sbox1Entries : List Byte :=
    [0xF6, 0xA0, 0xB8, 0x04, 0xA3, 0xCF, 0xD0, 0xC9, 0x4F, 0xDB, 0x34, 0x6E, 0xC8, 0x7C, 0x43, 0xAE] ++
    [0xEA, 0x2C, 0x39, 0x64, 0x7D, 0xBF, 0xB7, 0x0F, 0x4C, 0xD5, 0xD7, 0x6C, 0xAA, 0x57, 0x6F, 0x8E] ++
    [0xB1, 0x4D, 0xFF, 0x85, 0x19, 0x0B, 0x7F, 0x89, 0xA6, 0x71, 0x76, 0xF3, 0x2B, 0x70, 0xE9, 0xE7] ++
    [0x12, 0xA1, 0xD6, 0xC1, 0x07, 0x44, 0xE8, 0x84, 0x88, 0x77, 0xE4, 0x66, 0x80, 0x4E, 0x79, 0x83] ++
    [0xE1, 0x9D, 0xC3, 0x69, 0x16, 0x68, 0x78, 0x5C, 0xED, 0x3B, 0x9E, 0xA8, 0x73, 0x09, 0x97, 0xDA] ++
    [0x3F, 0x27, 0x21, 0xB9, 0xFA, 0xF0, 0x4A, 0x87, 0x45, 0xAF, 0x0D, 0x72, 0xA5, 0xEE, 0xC2, 0x50] ++
    [0x90, 0x05, 0x92, 0xD9, 0xD1, 0xA4, 0x56, 0x37, 0x9A, 0x0E, 0xC7, 0x98, 0x2A, 0x23, 0x10, 0x14] ++
    [0x26, 0xE6, 0x61, 0x9C, 0xD2, 0xB2, 0x06, 0x6B, 0xEC, 0xEF, 0xF7, 0x99, 0x81, 0x7B, 0x0C, 0x3A] ++
    [0x35, 0x8A, 0x38, 0x52, 0x0A, 0x93, 0xFB, 0x94, 0x2D, 0x6D, 0x60, 0x95, 0x9B, 0x36, 0xF8, 0x03] ++
    [0xC4, 0xB4, 0xBE, 0x00, 0xB0, 0xCA, 0x01, 0x3D, 0xF9, 0xCC, 0x53, 0x32, 0x40, 0x8C, 0x20, 0x1A] ++
    [0x42, 0xDD, 0x62, 0xFC, 0x96, 0x24, 0x65, 0x51, 0x59, 0xBC, 0x13, 0xB5, 0xBB, 0xC0, 0xA7, 0x1C] ++
    [0xE3, 0x5D, 0xDE, 0xE5, 0x1D, 0x25, 0x22, 0xBD, 0xFD, 0xCE, 0x18, 0x6A, 0x91, 0xF5, 0xB3, 0xA2] ++
    [0xE0, 0xF2, 0x5A, 0xD3, 0xC5, 0xD8, 0x1B, 0xB6, 0xEB, 0x8B, 0x2F, 0x02, 0x11, 0xF1, 0x33, 0x5F] ++
    [0xDC, 0xBA, 0xD4, 0x75, 0x5E, 0xE2, 0x3E, 0x49, 0x30, 0xAB, 0x7E, 0x86, 0xFE, 0x82, 0x5B, 0xC6] ++
    [0xF4, 0x08, 0x15, 0x67, 0x48, 0x41, 0x8D, 0x31, 0x17, 0x4B, 0xCB, 0xAD, 0x46, 0x55, 0x8F, 0x3C] ++
    [0x29, 0x1F, 0xCD, 0x9F, 0x74, 0x2E, 0x54, 0xA9, 0xDF, 0x47, 0x1E, 0x63, 0x58, 0x28, 0xAC, 0x7A]

/-- 95_test_vectors.md section 2.1, `SBOX1`. -/
def sbox1 : ByteTable := ⟨sbox1Entries.toArray, by decide +kernel⟩
def isbox1Entries : List Byte :=
    [0x93, 0x96, 0xCB, 0x8F, 0x03, 0x61, 0x76, 0x34, 0xE1, 0x4D, 0x84, 0x25, 0x7E, 0x5A, 0x69, 0x17] ++
    [0x6E, 0xCC, 0x30, 0xAA, 0x6F, 0xE2, 0x44, 0xE8, 0xBA, 0x24, 0x9F, 0xC6, 0xAF, 0xB4, 0xFA, 0xF1] ++
    [0x9E, 0x52, 0xB6, 0x6D, 0xA5, 0xB5, 0x70, 0x51, 0xFD, 0xF0, 0x6C, 0x2C, 0x11, 0x88, 0xF5, 0xCA] ++
    [0xD8, 0xE7, 0x9B, 0xCE, 0x0A, 0x80, 0x8D, 0x67, 0x82, 0x12, 0x7F, 0x49, 0xEF, 0x97, 0xD6, 0x50] ++
    [0x9C, 0xE5, 0xA0, 0x0E, 0x35, 0x58, 0xEC, 0xF9, 0xE4, 0xD7, 0x56, 0xE9, 0x18, 0x21, 0x3D, 0x08] ++
    [0x5F, 0xA7, 0x83, 0x9A, 0xF6, 0xED, 0x66, 0x1D, 0xFC, 0xA8, 0xC2, 0xDE, 0x47, 0xB1, 0xD4, 0xCF] ++
    [0x8A, 0x72, 0xA2, 0xFB, 0x13, 0xA6, 0x3B, 0xE3, 0x45, 0x43, 0xBB, 0x77, 0x1B, 0x89, 0x0B, 0x1E] ++
    [0x2D, 0x29, 0x5B, 0x4C, 0xF4, 0xD3, 0x2A, 0x39, 0x46, 0x3E, 0xFF, 0x7D, 0x0D, 0x14, 0xDA, 0x26] ++
    [0x3C, 0x7C, 0xDD, 0x3F, 0x37, 0x23, 0xDB, 0x57, 0x38, 0x27, 0x81, 0xC9, 0x9D, 0xE6, 0x1F, 0xEE] ++
    [0x60, 0xBC, 0x62, 0x85, 0x87, 0x8B, 0xA4, 0x4E, 0x6B, 0x7B, 0x68, 0x8C, 0x73, 0x41, 0x4A, 0xF3] ++
    [0x01, 0x31, 0xBF, 0x04, 0x65, 0x5C, 0x28, 0xAE, 0x4B, 0xF7, 0x1C, 0xD9, 0xFE, 0xEB, 0x0F, 0x59] ++
    [0x94, 0x20, 0x75, 0xBE, 0x91, 0xAB, 0xC7, 0x16, 0x02, 0x53, 0xD1, 0xAC, 0xA9, 0xB7, 0x92, 0x15] ++
    [0xAD, 0x33, 0x5E, 0x42, 0x90, 0xC4, 0xDF, 0x6A, 0x0C, 0x07, 0x95, 0xEA, 0x99, 0xF2, 0xB9, 0x05] ++
    [0x06, 0x64, 0x74, 0xC3, 0xD2, 0x19, 0x32, 0x1A, 0xC5, 0x63, 0x4F, 0x09, 0xD0, 0xA1, 0xB2, 0xF8] ++
    [0xC0, 0x40, 0xD5, 0xB0, 0x3A, 0xB3, 0x71, 0x2F, 0x36, 0x2E, 0x10, 0xC8, 0x78, 0x48, 0x5D, 0x79] ++
    [0x55, 0xCD, 0xC1, 0x2B, 0xE0, 0xBD, 0x00, 0x7A, 0x8E, 0x98, 0x54, 0x86, 0xA3, 0xB8, 0xDC, 0x22]

/-- 95_test_vectors.md section 2.1, `ISBOX1`. -/
def isbox1 : ByteTable := ⟨isbox1Entries.toArray, by decide +kernel⟩

/-- Section 2.1, `KM1`. -/
def km1 : KeyMaterial :=
  { pk := key1
    sk := #v[0x36, 0x37, 0x34, 0x35, 0x32, 0x33, 0x30, 0x31, 0x3E, 0x3F, 0x3C, 0x3D, 0x3A, 0x3B, 0x38, 0x39,
      0x26, 0x27, 0x24, 0x25, 0x22, 0x23, 0x20, 0x21, 0x2E, 0x2F, 0x2C, 0x2D, 0x2A, 0x2B, 0x28, 0x29]
    sbox := sbox1
    isbox := isbox1
    pt := #v[9, 5, 4, 10, 15, 14, 1, 11, 6, 8, 7, 12, 3, 13, 0, 2]
    ipt := #v[14, 6, 15, 12, 2, 1, 8, 10, 9, 0, 3, 7, 11, 13, 5, 4]
    rc := #v[0xBAAA460C, 0xBF1C5819, 0xB7F320D6, 0xAED8AD62, 0xD5E2ABD8, 0x93A49914, 0x104533B7, 0x70429D6E,
      0x5E06DFB9, 0x3BC61561, 0xD4237354, 0xF37C6070, 0x9139A6E9, 0x197E577B, 0xA1BA88D3, 0xE4B280E3] }

/-- Section 2.3, `KM_A`, the transparent key material. -/
def kmA : KeyMaterial :=
  { pk := Vector.replicate 32 0
    sk := Vector.replicate 32 0x36
    sbox := Vector.ofFn fun i => BitVec.ofNat 8 i.val
    isbox := Vector.ofFn fun i => BitVec.ofNat 8 i.val
    pt := identitySequence 16
    ipt := identitySequence 16
    rc := Vector.replicate 16 0 }

/-- A core without a key. -/
def blank : State := { keyValid := false, km := kmA, inbox := [], outbox := [], draws := 1 }

/-- A core with the key material `km`. -/
def keyed (km : KeyMaterial) : State := { blank with keyValid := true, km := km }

/-- A core whose next events are the given frames. -/
def sent (s : State) (fs : List Frame) : State := { s with inbox := fs.map .command }

/-- The block `X` of 41_round_primitives.md. -/
def blockX : Block := #v[0x00, 0x11, 0x22, 0x33, 0x44, 0x55, 0x66, 0x77, 0x88, 0x99, 0xAA, 0xBB, 0xCC, 0xDD, 0xEE, 0xFF]

/-- V30: the block `B` and its ciphertext `C1` under `KM1`. -/
def blockB : Block := #v[0x48, 0x45, 0x4C, 0x4C, 0x4F, 0x0B, 0x0B, 0x0B, 0x0B, 0x0B, 0x0B, 0x0B, 0x0B, 0x0B, 0x0B, 0x0B]

def blockC1 : Block := #v[0x34, 0xB8, 0x0A, 0xB7, 0xC1, 0x09, 0x29, 0x6F, 0x04, 0x5D, 0x77, 0x44, 0xEE, 0x5D, 0x11, 0xAF]

/-! ## Ill-formed terms, refused -/

theorem illFormed {i : Instr} (h : 65535 < i.payload.length) : i.wellFormed = false := by
  rw [Bool.eq_false_iff, ne_eq, wellFormed_iff]
  exact Nat.not_le.mpr h

theorem bytes_65536 : 65535 < (List.replicate 65536 (0 : Byte)).length := by
  rw [List.length_replicate]; decide

theorem test_setkey_tooLong : (Instr.setkey (List.replicate 65536 0)).wellFormed = false := illFormed bytes_65536

theorem test_encblk_tooLong : (Instr.encblk (List.replicate 65536 0)).wellFormed = false := illFormed bytes_65536

theorem test_decblk_tooLong : (Instr.decblk (List.replicate 65536 0)).wellFormed = false := illFormed bytes_65536

theorem bytes_65535 : (List.replicate 65535 (0 : Byte)).length = 65535 := List.length_replicate

theorem test_longest_payload : (Instr.decblk (List.replicate 65535 0)).wellFormed = true :=
  wellFormed_iff.mpr (Nat.le_of_eq bytes_65535)

/-! ## Decoding, from frames written out in the spec -/

/-- V5. -/
theorem test_decode_setkey : decodeFrame
    [0x01, 0x20, 0x00, 0x00, 0x01, 0x02, 0x03, 0x04, 0x05, 0x06, 0x07, 0x08, 0x09, 0x0A, 0x0B, 0x0C, 0x0D, 0x0E, 0x0F,
      0x10, 0x11, 0x12, 0x13, 0x14, 0x15, 0x16, 0x17, 0x18, 0x19, 0x1A, 0x1B, 0x1C, 0x1D, 0x1E, 0x1F] =
    .command (.setkey [0x00, 0x01, 0x02, 0x03, 0x04, 0x05, 0x06, 0x07, 0x08, 0x09, 0x0A, 0x0B, 0x0C, 0x0D, 0x0E, 0x0F,
      0x10, 0x11, 0x12, 0x13, 0x14, 0x15, 0x16, 0x17, 0x18, 0x19, 0x1A, 0x1B, 0x1C, 0x1D, 0x1E, 0x1F]) := by decide

/-- V30, the command frame. -/
theorem test_decode_encblk : decodeFrame
    [0x02, 0x10, 0x00, 0x48, 0x45, 0x4C, 0x4C, 0x4F, 0x0B, 0x0B, 0x0B, 0x0B, 0x0B, 0x0B, 0x0B, 0x0B, 0x0B, 0x0B, 0x0B] =
    .command (.encblk [0x48, 0x45, 0x4C, 0x4C, 0x4F, 0x0B, 0x0B, 0x0B, 0x0B, 0x0B, 0x0B, 0x0B, 0x0B, 0x0B, 0x0B, 0x0B]) := by
  decide

/-- P1 step 3. -/
theorem test_decode_decblk : decodeFrame
    [0x03, 0x10, 0x00, 0x34, 0xB8, 0x0A, 0xB7, 0xC1, 0x09, 0x29, 0x6F, 0x04, 0x5D, 0x77, 0x44, 0xEE, 0x5D, 0x11, 0xAF] =
    .command (.decblk [0x34, 0xB8, 0x0A, 0xB7, 0xC1, 0x09, 0x29, 0x6F, 0x04, 0x5D, 0x77, 0x44, 0xEE, 0x5D, 0x11, 0xAF]) := by
  decide

/-- V57, V58, V59a: 0x7F, 0x00 and 0x04 are no commands. -/
theorem test_decode_illegal :
    decodeFrame [0x7F, 0x00, 0x00] = .illegal 0x7F [] ∧
    decodeFrame [0x00, 0x02, 0x00, 0x11, 0x22] = .illegal 0x00 [0x11, 0x22] ∧
    decodeFrame [0x04, 0x00, 0x00] = .illegal 0x04 [] := by decide

/-- V59b, V59c: byte 1 is the low byte of `LEN` and byte 2 the high one. -/
theorem test_len_low_byte_first : lenField 0x00 0x01 = 256 ∧ lenField 0x10 0x01 = 272 ∧
    lenLow 272 = 0x10 ∧ lenHigh 272 = 0x01 := by decide

/-- R54: cut short, over-long, and without a header. -/
theorem test_decode_malformed :
    decodeFrame [0x02, 0x02, 0x00, 0xAA] = .malformed .cutShort ∧
    decodeFrame [0x02, 0x02, 0x00, 0xAA, 0xBB, 0xCC] = .malformed .overLong ∧
    decodeFrame [0x02, 0x02] = .malformed .noHeader := by decide

theorem test_opcode_rows_distinct : opcodeTable.Pairwise fun a b => a.opc ≠ b.opc := by
  simp [opcodeTable]

theorem test_headers (i : Instr) : Laws.HeaderBytes.Statement i := by
  cases i with
  | setkey p => exact Laws.HeaderBytes.setkey p
  | encblk p => exact Laws.HeaderBytes.encblk p
  | decblk p => exact Laws.HeaderBytes.decblk p

/-! ## Key schedule -/

/-- V1. -/
theorem test_hashRef : hashRef key1 = 0x0913AD65 := by decide +kernel

/-- V2: outputs 1 to 4 of the reference generator. -/
theorem test_next32Ref :
    (drawWords partsRef 4 0x0913AD65).1 = #v[0xEB59547A, 0xFB18E6B1, 0x1E181F96, 0xA0B0FD03] := by decide +kernel

/-- V3: the first three swaps of the S-box shuffle. -/
theorem test_shuffleSwapsRef : (shuffleSwapsRef 256 [0xEB59547A, 0xFB18E6B1, 0x1E181F96]).map
    (fun ij => (ij.1.val, ij.2.val)) = [(255, 122), (254, 172), (253, 40)] := by decide +kernel

/-- Section 2.1: the eight steps over the reference parts give `PT1` and `RC1`, which follow the S-box's 255 draws in
the one stream. -/
theorem test_keySchedule_pt_rc : (ksRef key1).pt = km1.pt ∧ (ksRef key1).rc = km1.rc := by decide +kernel

/-- P1 step 1, V6: a SETKEY of 32 bytes installs the raw key as `PK`, and `SK[5] = 0x33` (R70). -/
theorem test_setkey (s : State) :
    ∃ t : State, exec (.setkey key1.toList) s = .next t ∧ t.keyValid = true ∧ t.km.pk = key1 ∧
      t.km.sk[5] = 0x33 ∧ t.outbox = s.outbox ++ [[0x00, 0x00, 0x00]] :=
  ⟨_, execSetkey_ok key1 s, rfl, rfl, by simp [ks, keySchedule, key1], rfl⟩

/-! ## Round primitives -/

/-- V10, V11. -/
theorem test_whiten :
    whiten km1.pk blockX =
      #v[0x00, 0x10, 0x20, 0x30, 0x40, 0x50, 0x60, 0x70, 0x80, 0x90, 0xA0, 0xB0, 0xC0, 0xD0, 0xE0, 0xF0] ∧
    whiten km1.sk blockX =
      #v[0x36, 0x26, 0x16, 0x06, 0x76, 0x66, 0x56, 0x46, 0xB6, 0xA6, 0x96, 0x86, 0xF6, 0xE6, 0xD6, 0xC6] := by
  decide +kernel

/-- V13. -/
theorem test_substitute : substitute sbox1 blockX =
    #v[0xF6, 0x2C, 0xFF, 0xC1, 0x16, 0xF0, 0x56, 0x6B, 0x2D, 0xCC, 0x13, 0x6A, 0x11, 0x82, 0x8F, 0x7A] := by
  decide +kernel

/-- V14. -/
theorem test_invSubstitute : invSubstitute isbox1 blockX =
    #v[0x93, 0xCC, 0xB6, 0xCE, 0x35, 0xED, 0x3B, 0x39, 0x38, 0x7B, 0x1C, 0xAC, 0x99, 0xA1, 0x5D, 0x22] := by
  decide +kernel

/-- V16: a scatter. -/
theorem test_permute : permute km1.pt blockX =
    #v[0xEE, 0x66, 0xFF, 0xCC, 0x22, 0x11, 0x88, 0xAA, 0x99, 0x00, 0x33, 0x77, 0xBB, 0xDD, 0x55, 0x44] := by
  decide +kernel

/-- V17: a gather; and the same through `IPT` (R95). -/
theorem test_invPermute :
    invPermute km1.pt blockX =
      #v[0x99, 0x55, 0x44, 0xAA, 0xFF, 0xEE, 0x11, 0xBB, 0x66, 0x88, 0x77, 0xCC, 0x33, 0xDD, 0x00, 0x22] ∧
    invPermuteByScatter km1.ipt blockX = invPermute km1.pt blockX := by
  decide +kernel

/-- V21, row 12345678, and R96's examples. -/
theorem test_mixKeyByte : (List.finRange 16).map (mixKeyByte 0x12345678) =
    [0x78, 0x3C, 0x9E, 0xCF, 0x67, 0xB3, 0x59, 0xAC, 0x56, 0x2B, 0x15, 0x8A, 0x45, 0xA2, 0xD1, 0x68] ∧
    (List.finRange 16).all (fun i => mixKeyByte 0xFF800000 i == 0x00) = true := by
  decide +kernel

/-- V21, row 12345678. -/
theorem test_mix : mix 0x12345678 blockX =
    #v[0x78, 0x55, 0xE9, 0x15, 0x36, 0xD0, 0xEF, 0x34, 0xEA, 0x58, 0xE7, 0xD6, 0x5F, 0x20, 0x1F, 0x88] := by
  decide +kernel

/-- V21, row 12345678. -/
theorem test_invMix : invMix 0x12345678 blockX =
    #v[0x78, 0x2D, 0xAD, 0xDE, 0x10, 0xA2, 0x6A, 0xBD, 0xA9, 0x3A, 0x26, 0x9B, 0x32, 0xB3, 0xE2, 0x79] := by
  decide +kernel

/-! ## Block commands -/

theorem km1_invertible : tablesInvertible km1 = true := by decide +kernel

theorem kmA_invertible : tablesInvertible kmA = true :=
  tablesInvertible_iff.mpr
    ⟨fun x => by simp [kmA, readByteTable], fun i => by simp [kmA, readLaneTable, identitySequence]⟩

theorem kmA_secondary : secondaryMatches kmA = true := by decide +kernel

theorem encryptBlock_km1 : encryptBlock km1 blockB = blockC1 := by decide +kernel

theorem decryptBlock_km1 : decryptBlock km1 blockC1 = blockB := by decide +kernel

/-- V30: ENCBLK of `B` with `KM1` answers `C1`. -/
theorem test_encblk : exec (.encblk blockB.toList) (keyed km1) =
    .next { keyed km1 with outbox := [0x00 :: 0x10 :: 0x00 :: blockC1.toList] } := by
  have h : encryptBlock (keyed km1).km blockB = blockC1 := encryptBlock_km1
  rw [exec_encblk, blockCommand_ok (s := keyed km1) (b := blockB) rfl km1_invertible, respond_eq, responseFrame_block, h]
  rfl

/-- V31: DECBLK of `C1` with `KM1` answers `B`. -/
theorem test_decblk : exec (.decblk blockC1.toList) (keyed km1) =
    .next { keyed km1 with outbox := [0x00 :: 0x10 :: 0x00 :: blockB.toList] } := by
  have h : decryptBlock (keyed km1).km blockC1 = blockB := decryptBlock_km1
  rw [exec_decblk, blockCommand_ok (s := keyed km1) (b := blockC1) rfl km1_invertible, respond_eq, responseFrame_block, h]
  rfl

/-! ## Errors -/

/-- V50, V55: 31 bytes, and none. -/
theorem test_setkey_error :
    exec (.setkey (List.replicate 31 0)) blank = .next { blank with outbox := [[0x01, 0x00, 0x00]] } ∧
    exec (.setkey []) blank = .next { blank with outbox := [[0x01, 0x00, 0x00]] } :=
  ⟨(exec_setkey _ _).trans (execSetkey_badLength (by decide) _),
    (exec_setkey _ _).trans (execSetkey_badLength (by decide) _)⟩

/-- V54, V56: no key; and an empty payload without a key, where the length is checked first. -/
theorem test_encblk_error :
    exec (.encblk (List.replicate 16 0)) blank = .next { blank with outbox := [[0x07, 0x00, 0x00]] } ∧
    exec (.encblk []) blank = .next { blank with outbox := [[0x02, 0x00, 0x00]] } :=
  ⟨(exec_encblk _ _).trans (blockCommand_noKey rfl rfl), (exec_encblk _ _).trans (blockCommand_badLength (by decide))⟩

/-- V59, V53: no key; 17 bytes. -/
theorem test_decblk_error :
    exec (.decblk (List.replicate 16 0)) blank = .next { blank with outbox := [[0x07, 0x00, 0x00]] } ∧
    exec (.decblk (List.replicate 17 0)) blank = .next { blank with outbox := [[0x02, 0x00, 0x00]] } :=
  ⟨(exec_decblk _ _).trans (blockCommand_noKey rfl rfl), (exec_decblk _ _).trans (blockCommand_badLength (by decide))⟩

/-- V57, V58: an illegal opcode is answered, its payload consumed. -/
theorem test_illegal : step (sent blank [[0x7F, 0x00, 0x00]]) = .next { blank with outbox := [[0x08, 0x00, 0x00]] } ∧
    step (sent blank [[0x00, 0x01, 0x00, 0xAA]]) = .next { blank with outbox := [[0x08, 0x00, 0x00]] } :=
  ⟨rfl, rfl⟩

/-! ## Host Codec and notation -/

/-- V60: five bytes, and none. -/
theorem test_padInput :
    padInput [0x48, 0x45, 0x4C, 0x4C, 0x4F] =
      [0x48, 0x45, 0x4C, 0x4C, 0x4F, 0x0B, 0x0B, 0x0B, 0x0B, 0x0B, 0x0B, 0x0B, 0x0B, 0x0B, 0x0B, 0x0B] ∧
    padInput [] = List.replicate 16 0x10 ∧ (padInput (List.replicate 16 0)).length = 32 := by
  decide

/-- V61. -/
theorem test_removePadding : removePadding [] = .error .emptyInput ∧ removePadding [0x11] = .error .invalidPadding ∧
    removePadding [0x03, 0x03] = .error .invalidPadding ∧
    removePadding [0x01, 0x02, 0x03, 0x00] = .ok [0x01, 0x02, 0x03, 0x00] ∧
    removePadding [0x09, 0x09, 0x02] = .ok [0x09] ∧ removePadding (List.replicate 16 0x10) = .ok [] := by
  decide

/-- R71, R52: 31 bytes are answered by the core, 65536 bytes by the host (log entry 21). -/
theorem test_hostSetKey :
    hostSetKey (List.replicate 31 0) blank = .next (.error .invalidKeySize, respond .invalidKeySize [] blank) ∧
    hostSetKey (List.replicate 65536 0) blank = .next (.error .invalidKeySize, blank) :=
  ⟨by rfl, if_neg (Nat.not_le.mpr bytes_65536)⟩

/-- V64: 17 bytes, and none, with no command sent. -/
theorem test_decrypt_sizes : hostDecrypt (List.replicate 17 0) blank = .next (.error .invalidCiphertextSize, blank) ∧
    hostDecrypt [] blank = .next (.error .emptyInput, blank) := ⟨rfl, rfl⟩

/-- V67: `"34B80A"` and `"00FF10"`. -/
theorem test_bytesToHex :
    bytesToHex [0x34, 0xB8, 0x0A] = bytesToText [0x33, 0x34, 0x42, 0x38, 0x30, 0x41] ∧
    bytesToHex [0x00, 0xFF, 0x10] = bytesToText [0x30, 0x30, 0x46, 0x46, 0x31, 0x30] := by decide

/-- V67: `"34b80a"`, `"0A1"`, `"0AG"`, `"G"`, `"0A1G"`, `"0A 1B"`. -/
theorem test_hexToBytes :
    hexToBytes (bytesToText [0x33, 0x34, 0x62, 0x38, 0x30, 0x61]) = .ok [0x34, 0xB8, 0x0A] ∧
    hexToBytes (bytesToText [0x30, 0x41, 0x31]) = .ok [0x0A] ∧
    hexToBytes (bytesToText [0x30, 0x41, 0x47]) = .ok [0x0A] ∧
    hexToBytes (bytesToText [0x47]) = .ok [] ∧
    hexToBytes (bytesToText [0x30, 0x41, 0x31, 0x47]) = .error .hexParseError ∧
    hexToBytes (bytesToText [0x30, 0x41, 0x20, 0x31, 0x42]) = .error .hexParseError := by decide

/-- R59: `DECBLK 34B8`, `.cmd 0x7F 0A 1B`, and `.cmd 0x01 ` (log entry 16). -/
theorem test_assemble :
    assemble (bytesToText [0x44, 0x45, 0x43, 0x42, 0x4C, 0x4B, 0x20, 0x33, 0x34, 0x42, 0x38]) =
      some [0x03, 0x02, 0x00, 0x34, 0xB8] ∧
    assemble (bytesToText [0x2E, 0x63, 0x6D, 0x64, 0x20, 0x30, 0x78, 0x37, 0x46, 0x20, 0x30, 0x41, 0x20, 0x31, 0x42]) =
      some [0x7F, 0x02, 0x00, 0x0A, 0x1B] ∧
    assemble (bytesToText [0x2E, 0x63, 0x6D, 0x64, 0x20, 0x30, 0x78, 0x30, 0x31, 0x20]) = some [0x01, 0x00, 0x00] := by
  decide

/-- P2 steps 4 and 5: `-> OK` and `-> InvalidBlockSize`. -/
theorem test_showResponse :
    showResponse .ok [] = bytesToText [0x2D, 0x3E, 0x20, 0x4F, 0x4B] ∧
    showResponse .invalidBlockSize [] =
      bytesToText [0x2D, 0x3E, 0x20, 0x49, 0x6E, 0x76, 0x61, 0x6C, 0x69, 0x64, 0x42, 0x6C, 0x6F, 0x63, 0x6B, 0x53, 0x69, 0x7A, 0x65] := by
  decide

/-! ## Witnesses: values that meet all the hypotheses of an obligation together -/

/-- `KM_A` with an `ISBOX` that is no inverse. -/
def kmBad : KeyMaterial := { kmA with isbox := Vector.replicate 256 0 }

theorem kmBad_inconsistent : tablesInvertible kmBad = false := by decide +kernel

theorem keyedA_inv : (keyed kmA).KeyInvariant := fun _ => ⟨kmA_invertible, kmA_secondary⟩

theorem blank_inv : blank.KeyInvariant := fun h => absurd h (by decide)

/-- The frame of an ENCBLK of `X`. -/
def frameX : Frame := 0x02 :: 0x10 :: 0x00 :: blockX.toList

theorem step_keyedA : step (sent (keyed kmA) [frameX]) =
    .next (respond .ok (encryptBlock kmA blockX).toList (keyed kmA)) :=
  (step_frame (s := sent (keyed kmA) [frameX]) rfl).trans
    ((acceptFrame_command (f := frameX) (i := .encblk blockX.toList) (by decide +kernel) _).trans
      ((exec_encblk _ _).trans (blockCommand_ok (s := keyed kmA) rfl kmA_invertible)))

theorem step_badKey : step (sent blank [[0x01, 0x00, 0x00]]) = .next (respond .invalidKeySize [] blank) := rfl

theorem step_badBlock : step (sent blank [[0x03, 0x01, 0x00, 0xAA]]) = .next (respond .invalidBlockSize [] blank) := rfl

theorem step_noKey : step (sent blank [0x03 :: 0x10 :: 0x00 :: List.replicate 16 0]) =
    .next (respond .keyNotLoaded [] blank) := rfl

theorem step_illegal : step (sent blank [[0xFF, 0x00, 0x00]]) = .next (respond .illegalCommand [] blank) := rfl

theorem step_newKey : step (sent blank [0x01 :: 0x20 :: 0x00 :: key1.toList]) =
    .next (respond .ok [] (setKeyValid (installKey (ks key1) blank))) :=
  (step_frame (s := sent blank [0x01 :: 0x20 :: 0x00 :: key1.toList]) rfl).trans
    ((acceptFrame_command (decodeFrame_setkey key1) _).trans (execSetkey_ok key1 blank))

theorem witness_DecodeOfEncodeIsTheCommand :
    (Instr.setkey []).wellFormed = true ∧ (Instr.encblk blockX.toList).wellFormed = true ∧
      (Instr.decblk (List.replicate 65535 0)).wellFormed = true :=
  ⟨rfl, encblk_wellFormed blockX, test_longest_payload⟩

theorem witness_EncodeOfDecodeIsTheFrame :
    decodeFrame [0x03, 0x02, 0x00, 0xAA, 0xBB] = .command (.decblk [0xAA, 0xBB]) ∧
      decodeFrame [0x01, 0x00, 0x00] = .command (.setkey []) := by decide

theorem witness_OpcodeAloneSelectsTheCommand :
    ([] : List Byte).length = (0x00 : Byte).toNat + 256 * (0x00 : Byte).toNat ∧
      (List.replicate 65535 (0 : Byte)).length = (0xFF : Byte).toNat + 256 * (0xFF : Byte).toNat :=
  ⟨rfl, bytes_65535⟩

theorem witness_StepRunsTheDecodedCommand :
    (sent blank [[0x02, 0x00, 0x00]]).inbox = .command [0x02, 0x00, 0x00] :: [] ∧
      decodeFrame [0x02, 0x00, 0x00] = .command (.encblk []) := ⟨rfl, by decide⟩

theorem witness_TableWordRunsNext :
    decodeTableWord 24 0x000001 = some (.setkey []) ∧
      decodeTableWord 24 0x001003 = some (.decblk (List.replicate 16 0)) := by decide

theorem witness_CoreWaitsForACommand : blank.inbox = [] := rfl

/-- One byte too few, one too many, and no header; and a frame that is whole. -/
theorem witness_MalformedFramesHaveNoStep :
    step (sent blank [[0x02, 0x01, 0x00]]) = .refused (.malformedFrame .cutShort) ∧
      step (sent blank [[0x02, 0x01, 0x00, 0xAA, 0xBB]]) = .refused (.malformedFrame .overLong) ∧
      step (sent blank [[0x02, 0x01]]) = .refused (.malformedFrame .noHeader) ∧
      step (sent blank [[0x02, 0x01, 0x00, 0xAA]]) = .next (respond .invalidBlockSize [] blank) :=
  ⟨rfl, rfl, rfl, rfl⟩

/-- The lowest opcode, the first after the three, and the highest. -/
theorem witness_IllegalOpcodesAreAnswered : ∀ opc ∈ [(0x00 : Byte), 0x04, 0xFF],
    opc ≠ 0x01 ∧ opc ≠ 0x02 ∧ opc ≠ 0x03 ∧ ([] : List Byte).length = (0x00 : Byte).toNat + 256 * (0x00 : Byte).toNat ∧
      (sent blank [[opc, 0x00, 0x00]]).inbox = .command [opc, 0x00, 0x00] :: [] := by
  intro opc h
  refine ⟨?_, ?_, ?_, rfl, rfl⟩ <;> (revert opc; decide)

/-- An answer of each form. -/
theorem witness_ResponseFrames :
    (∃ t, step (sent (keyed kmA) [frameX]) = .next t) ∧
      (∃ t, step (sent blank [0x01 :: 0x20 :: 0x00 :: key1.toList]) = .next t) ∧
      (∃ t, step (sent blank [[0xFF, 0x00, 0x00]]) = .next t) :=
  ⟨⟨_, step_keyedA⟩, ⟨_, step_newKey⟩, ⟨_, step_illegal⟩⟩

theorem witness_StatusCodesAndLayout :
    (List.replicate 65535 (0 : Byte)).length ≤ 65535 ∧
      (∃ t, (sent blank [[0xFF, 0x00, 0x00]]).inbox = .command [0xFF, 0x00, 0x00] :: [] ∧
        step (sent blank [[0xFF, 0x00, 0x00]]) = .next t) :=
  ⟨Nat.le_of_eq bytes_65535, ⟨_, rfl, step_illegal⟩⟩

/-- Every error of the core, each answered. -/
theorem witness_ErrorsAreRaisedExactlyWhere :
    (∃ t, step (sent blank [[0x01, 0x00, 0x00]]) = .next t ∧ t.outbox = blank.outbox ++ [[0x01, 0x00, 0x00]]) ∧
      (∃ t, step (sent blank [[0x03, 0x01, 0x00, 0xAA]]) = .next t ∧
        t.outbox = blank.outbox ++ [[0x02, 0x00, 0x00]]) ∧
      (∃ t, step (sent blank [0x03 :: 0x10 :: 0x00 :: List.replicate 16 0]) = .next t ∧
        t.outbox = blank.outbox ++ [[0x07, 0x00, 0x00]]) ∧
      (∃ t, step (sent blank [[0xFF, 0x00, 0x00]]) = .next t ∧ t.outbox = blank.outbox ++ [[0x08, 0x00, 0x00]]) :=
  ⟨⟨_, step_badKey, rfl⟩, ⟨_, step_badBlock, rfl⟩, ⟨_, step_noKey, rfl⟩, ⟨_, step_illegal, rfl⟩⟩

theorem witness_ChecksHaveAFixedOrder :
    (sent (keyed kmA) [frameX]).KeyInvariant ∧
      blockX.toList.length = (0x10 : Byte).toNat + 256 * (0x00 : Byte).toNat ∧
      (sent (keyed kmA) [frameX]).inbox = .command (0x02 :: 0x10 :: 0x00 :: blockX.toList) :: [] :=
  ⟨keyedA_inv, rfl, rfl⟩

theorem witness_ErrorsLeaveNothingBehind :
    (0x01 : Byte) ≠ 0x00 ∧ exec (.setkey []) (keyed kmA) = .next (respond .invalidKeySize [] (keyed kmA)) ∧
      (respond .invalidKeySize [] (keyed kmA)).outbox = (keyed kmA).outbox ++ [[0x01, 0x00, 0x00]] ∧
      ∃ u, exec (.encblk blockX.toList) (keyed kmA) = .next u :=
  ⟨by decide, rfl, rfl, ⟨_, (exec_encblk _ _).trans (blockCommand_ok (s := keyed kmA) rfl kmA_invertible)⟩⟩

theorem witness_OverlappedCommandsFault :
    ({ blank with inbox := [.overlapped [0x01] [0x02]] } : State).inbox = .overlapped [0x01] [0x02] :: [] := rfl

theorem witness_SetkeyInstallsTheKey :
    (List.replicate 31 (0 : Byte)).length ≠ 32 ∧ (List.replicate 33 (0 : Byte)).length ≠ 32 := by decide

theorem witness_FailedSetkeyKeepsTheOldKey :
    ([] : List Byte).length ≠ 32 ∧ ∃ u, exec (.encblk blockX.toList) (keyed kmA) = .next u :=
  ⟨by decide, ⟨_, (exec_encblk _ _).trans (blockCommand_ok (s := keyed kmA) rfl kmA_invertible)⟩⟩

theorem witness_KeyScheduleProperties :
    (ks key1 = ks key1 ∨ ks key1 = ksRef key1) ∧ (ksRef key1 = ks key1 ∨ ksRef key1 = ksRef key1) :=
  ⟨.inl rfl, .inr rfl⟩

theorem witness_OnlySetkeyOrResetChangesTheTables :
    (∃ t, step (sent blank [0x01 :: 0x20 :: 0x00 :: key1.toList]) = .next t) ∧
      (∃ t, step ({ blank with inbox := [.reset] } : State) = .next t) :=
  ⟨⟨_, step_newKey⟩, ⟨_, step_reset rfl⟩⟩

/-- The flag rises, stays, and falls. -/
theorem witness_KeyValidChangesOnlyAsStated :
    (∃ t, step (sent blank [0x01 :: 0x20 :: 0x00 :: key1.toList]) = .next t ∧ blank.keyValid = false ∧
      t.keyValid = true) ∧
      (∃ t, step ({ keyed kmA with inbox := [.reset] } : State) = .next t ∧ (keyed kmA).keyValid = true ∧
        t.keyValid = false) :=
  ⟨⟨_, step_newKey, rfl, rfl⟩, ⟨_, step_reset rfl, rfl, rfl⟩⟩

theorem witness_EncblkEncryptsTheBlock :
    (keyed kmA).keyValid = true ∧ tablesInvertible (keyed kmA).km = true ∧
      (List.replicate 15 (0 : Byte)).length ≠ 16 ∧ (List.replicate 17 (0 : Byte)).length ≠ 16 ∧
      blockX.toList.length = 16 ∧ blank.keyValid = false :=
  ⟨rfl, kmA_invertible, by decide, by decide, rfl, rfl⟩

theorem witness_DecblkDecryptsTheBlock :
    (keyed km1).keyValid = true ∧ tablesInvertible (keyed km1).km = true ∧
      (List.replicate 15 (0 : Byte)).length ≠ 16 ∧ (List.replicate 17 (0 : Byte)).length ≠ 16 ∧
      blockX.toList.length = 16 ∧ blank.keyValid = false :=
  ⟨rfl, km1_invertible, by decide, by decide, rfl, rfl⟩

theorem witness_BlockCommandsChangeNothing :
    (∃ t, exec (.encblk blockX.toList) (keyed kmA) = .next t) ∧ (∃ t, exec (.decblk []) blank = .next t) ∧
      (sent (keyed kmA) []).keyValid = (keyed kmA).keyValid ∧ (sent (keyed kmA) []).km = (keyed kmA).km :=
  ⟨⟨_, (exec_encblk _ _).trans (blockCommand_ok (s := keyed kmA) rfl kmA_invertible)⟩, ⟨_, rfl⟩, rfl, rfl⟩

theorem witness_InconsistentTablesAreRefused :
    blockX.toList.length = 16 ∧ (keyed kmBad).keyValid = true ∧ tablesInvertible (keyed kmBad).km = false :=
  ⟨rfl, rfl, kmBad_inconsistent⟩

theorem witness_DecblkUndoesEncblk :
    (keyed kmA).keyValid = true ∧ (keyed kmA).KeyInvariant ∧ (sent (keyed kmA) [frameX]).keyValid = true ∧
      (sent (keyed kmA) [frameX]).km = (keyed kmA).km := ⟨rfl, keyedA_inv, rfl, rfl⟩

theorem witness_EncblkUndoesDecblk :
    (keyed kmA).keyValid = true ∧ (keyed kmA).KeyInvariant ∧ (sent (keyed kmA) []).keyValid = true ∧
      (sent (keyed kmA) []).km = (keyed kmA).km ∧ tablesInvertible km1 = true :=
  ⟨rfl, keyedA_inv, rfl, rfl, km1_invertible⟩

/-- Key tables that differ in entry 16 alone, the first the datapath does not read. -/
theorem witness_UpperKeyBytesAreNotWhitening :
    ∀ i : Fin 32, i.val < 16 → (kmA.pk.set 16 0xFF)[i] = kmA.pk[i] ∧ kmA.sk[i] = kmA.sk[i] := by
  decide +kernel

/-- Constants that differ in bit 23 alone, the first that is in no window. -/
theorem witness_UpperConstantBitsAreUnused :
    ∀ r : Round, readRoundTable (Vector.replicate 16 0x00800000) r &&& 0x007FFFFF =
      readRoundTable kmA.rc r &&& 0x007FFFFF := by decide +kernel

theorem witness_PermuteScatters : Function.Bijective (readLaneTable kmA.pt) := pt_bijective kmA_invertible

/-- The lanes at both ends. -/
theorem witness_MixKeyByteIsAWindow :
    (0 : Nat) < 8 ∧ (7 : Nat) < 8 ∧ (0 : Lane).val + 1 < 16 ∧ (14 : Lane).val + 1 < 16 := by
  decide

theorem witness_MixUsesNewNeighbours : (0 : Lane).val + 1 < 16 ∧ (14 : Lane).val + 1 < 16 := by decide

theorem witness_InvMixUsesOldNeighbours : (0 : Lane).val + 1 < 16 ∧ (14 : Lane).val + 1 < 16 := by decide

theorem witness_PrimitivesAreInversePairs : tablesInvertible kmA = true := kmA_invertible

theorem witness_MixIsAffine : Function.Bijective (readLaneTable km1.pt) := pt_bijective km1_invertible

theorem witness_StepKeepsTheKeyInvariant :
    (sent (keyed kmA) [frameX]).KeyInvariant ∧ ∃ t, step (sent (keyed kmA) [frameX]) = .next t :=
  ⟨keyedA_inv, ⟨_, step_keyedA⟩⟩

/-- A keyed core whose next event is a failed SETKEY. -/
theorem witness_StepKeepsTablesOfOneKey :
    ∃ s t : State, s.keyValid = true ∧ s.km = ks s.km.pk ∧ step s = .next t :=
  ⟨sent (keyed (ks key1)) [[0x01, 0x00, 0x00]], _, rfl, rfl, rfl⟩

theorem witness_SafeStatesAreAnswered : (sent (keyed kmA) [frameX]).Safe := by
  refine ⟨keyedA_inv, fun e he => ?_⟩
  obtain rfl : e = .command frameX := by simpa [sent] using he
  intro why h
  have hd : decodeFrame frameX = .command (.encblk blockX.toList) := by decide +kernel
  rw [hd] at h
  cases h

theorem witness_OneCommandOneResponse :
    (sent blank [[0x01, 0x00, 0x00], [0xFF, 0x00, 0x00]]).KeyInvariant ∧
      (∀ f ∈ [[0x01, 0x00, 0x00], [0xFF, 0x00, 0x00]], ∀ why, decodeFrame f ≠ .malformed why) ∧
      (sent blank [[0x01, 0x00, 0x00], [0xFF, 0x00, 0x00]]).inbox =
        [[0x01, 0x00, 0x00], [0xFF, 0x00, 0x00]].map .command := by
  refine ⟨blank_inv, ?_, rfl⟩
  intro f hf why h
  have hd : ∀ f ∈ [[0x01, 0x00, 0x00], [0xFF, 0x00, 0x00]], ∀ w ∈ [FrameError.noHeader, .cutShort, .overLong],
      decodeFrame f ≠ .malformed w := by decide
  exact hd f hf why (by cases why <;> simp) h

theorem between_harmless :
    ∀ i ∈ [Instr.setkey [], .encblk []], i.wellFormed = true ∧ ∀ p : List Byte, i = .setkey p → p.length ≠ 32 := by
  intro i hi
  simp only [List.mem_cons, List.not_mem_nil, or_false] at hi
  rcases hi with rfl | rfl
  · exact ⟨rfl, fun p hp => by cases hp; decide⟩
  · exact ⟨rfl, fun p hp => by cases hp⟩

/-- Either block command after a failed SETKEY and a failed ENCBLK. -/
theorem witness_BlockCommandsUseTheLatestKey : ∀ last ∈ [Instr.encblk blockX.toList, .decblk blockX.toList],
    (∃ result : Block, (last = .encblk blockX.toList ∧ result = encryptBlock (ks key1) blockX) ∨
      (last = .decblk blockX.toList ∧ result = decryptBlock (ks key1) blockX)) ∧
    (∀ i ∈ [Instr.setkey [], .encblk []], i.wellFormed = true ∧ ∀ p : List Byte, i = .setkey p → p.length ≠ 32) ∧
    ∃ s : State, s.inbox =
      (Instr.setkey key1.toList :: [Instr.setkey [], .encblk []] ++ [last]).map fun i => .command (encode i) := by
  intro last h
  refine ⟨?_, between_harmless, ⟨sent blank (([Instr.setkey key1.toList, .setkey [], .encblk []] ++ [last]).map encode), by
    simp [sent]⟩⟩
  simp only [List.mem_cons, List.not_mem_nil, or_false] at h
  rcases h with rfl | rfl
  · exact ⟨_, .inl ⟨rfl, rfl⟩⟩
  · exact ⟨_, .inr ⟨rfl, rfl⟩⟩

theorem witness_ResetEventClearsTheKey : ({ keyed kmA with inbox := [.reset] } : State).inbox = .reset :: [] := rfl

theorem witness_UnspecifiedTablesAreUnobservable :
    (sent blank [frameX, [0x01, 0x00, 0x00]]).keyValid = false ∧ kmA ≠ kmBad :=
  ⟨rfl, fun h => by
    have := congrArg tablesInvertible h
    rw [kmA_invertible, kmBad_inconsistent] at this
    cases this⟩

/-- The padding byte 16, the largest allowed, 17, the smallest over it, and a byte over the length. -/
theorem witness_RemovePaddingReadsTheLastByte :
    ((0x10 : Byte).toNat ≤ 16 ∧ (0x10 : Byte).toNat ≤ (List.replicate 15 (0 : Byte)).length + 1) ∧
      (0x11 : Byte).toNat > 16 ∧ (0x03 : Byte).toNat > [(0x03 : Byte)].length + 1 := by decide

theorem witness_EncryptIsBlockwise :
    (keyed kmA).keyValid = true ∧ tablesInvertible (keyed kmA).km = true ∧ blank.keyValid = false :=
  ⟨rfl, kmA_invertible, rfl⟩

theorem witness_DecryptIsBlockwise :
    (List.replicate 17 (0 : Byte)).length % 16 ≠ 0 ∧ (keyed kmA).keyValid = true ∧
      tablesInvertible (keyed kmA).km = true ∧ blank.keyValid = false := ⟨by decide, rfl, kmA_invertible, rfl⟩

theorem witness_DecryptUndoesEncrypt : (keyed kmA).keyValid = true ∧ (keyed kmA).KeyInvariant := ⟨rfl, keyedA_inv⟩

/-- `G` and a space are no digits, `F` and `a` are; an empty text has even length. -/
theorem witness_HexToBytesPairs :
    hexValue ⟨0x47⟩ = none ∧ hexValue ⟨0x20⟩ = none ∧ hexValue ⟨0x46⟩ = some 15 ∧ hexValue ⟨0x61⟩ = some 10 ∧
      hexToBytes [] = .ok [] ∧ hexToBytes [⟨0x47⟩, ⟨0x47⟩] = .error .hexParseError ∧ ([] : Text).length % 2 = 0 := by
  decide

theorem witness_AssemblyOfTheWrittenLine :
    (Instr.encblk [0x34, 0xB8]).wellFormed = true ∧
      ([⟨0x33⟩, ⟨0x34⟩, ⟨0x20⟩, ⟨0x42⟩, ⟨0x38⟩] : Text).filter (fun c => c.code != 0x20) =
        bytesToHex (Instr.encblk [0x34, 0xB8]).payload := by decide

end Sys2Proof.Tests
end

