-- ==== Sys2Proof/Proofs/KeyState.lean ====
section
/-! PROOFS. What a step does to the key state, `KEYVALID` and `KM` (10_state.md R18, R19, R21, R30): one inversion
lemma, from which each statement about the key state follows. -/

namespace Sys2Proof.Machine

/-! ### The key state under one step -/

/-- An answered instruction keeps flag and tables, or is a SETKEY on a whole key and gives both (R19, R21). -/
theorem exec_keyState_cases {i : Instr} {s t : State} (h : exec i s = .next t) :
    (t.keyValid = s.keyValid ∧ t.km = s.km) ∨
    (∃ key : KeyTable, i = .setkey key.toList ∧ t.keyValid = true ∧ t.km = ks key) := by
  rcases exec_cases i s with ⟨e, -, -, hx⟩ | ⟨key, hi, hx⟩ | ⟨-, -, b, ⟨-, hx⟩ | ⟨-, hx⟩⟩ | ⟨-, -, hx⟩ <;>
    rw [hx] at h <;> cases h
  case inr.inl => exact .inr ⟨key, hi, rfl, rfl⟩
  all_goals exact .inl ⟨rfl, rfl⟩

/-- An answered step keeps flag and tables, takes a whole SETKEY, or is a reset. -/
theorem step_keyState_cases {s t : State} (h : step s = .next t) :
    (t.keyValid = s.keyValid ∧ t.km = s.km) ∨
    (∃ (key : KeyTable) (rest : List HostEvent),
      s.inbox = .command (0x01 :: 0x20 :: 0x00 :: key.toList) :: rest ∧ t.keyValid = true ∧ t.km = ks key) ∨
    (∃ rest : List HostEvent, s.inbox = .reset :: rest ∧ t.keyValid = false) := by
  rcases step_next_cases h with ⟨-, rfl⟩ | ⟨rest, hin, rfl⟩ | ⟨f, rest, i, hin, hd, hx⟩ | ⟨f, rest, opc, p, -, -, rfl⟩
  · exact .inl ⟨rfl, rfl⟩
  · exact .inr (.inr ⟨rest, hin, rfl⟩)
  · rcases exec_keyState_cases hx with hkeep | ⟨key, rfl, hv, hk⟩
    · exact .inl hkeep
    · exact .inr (.inl ⟨key, rest, decodeFrame_setkey_inv hd ▸ hin, hv, hk⟩)
  · exact .inl ⟨rfl, rfl⟩

/-- A whole SETKEY frame is always answered, with the tables and the flag set (R70). -/
theorem step_setkey {s : State} {key : KeyTable} {rest : List HostEvent}
    (h : s.inbox = .command (0x01 :: 0x20 :: 0x00 :: key.toList) :: rest) :
    step s = .next (respond .ok [] (setKeyValid (installKey (ks key) { s with inbox := rest }))) := by
  rw [step_frame h, acceptFrame_command (decodeFrame_setkey key), exec_setkey, execSetkey_ok]

/-- What every result of `KS` has, the tables of a core with a key keep at every step: a step with a key after it either
left the key state alone or installed a result of `KS`. -/
theorem step_keeps_of_ks {P : KeyMaterial → Prop} (hks : ∀ key, P (ks key)) {s t : State}
    (hs : s.keyValid = true → P s.km) (h : step s = .next t) (ht : t.keyValid = true) : P t.km := by
  rcases step_keyState_cases h with ⟨hv, hk⟩ | ⟨key, -, -, -, hk⟩ | ⟨-, -, hv⟩
  · rw [hk]; exact hs (hv ▸ ht)
  · rw [hk]; exact hks key
  · rw [hv] at ht; cases ht

/-- Settles O41: every result of `KS` has invertible tables and a matching `SK`. -/
theorem stepKeepsTheKeyInvariant : Obligations.StepKeepsTheKeyInvariant := fun _ _ hs h =>
  step_keeps_of_ks (P := fun km => tablesInvertible km = true ∧ secondaryMatches km = true)
    (fun key => ⟨ks_invertible key, ks_secondaryMatches key⟩) hs h

/-- Settles O43: every result of `KS` holds the raw key it was made from, as `PK`. -/
theorem stepKeepsTablesOfOneKey : Obligations.StepKeepsTablesOfOneKey := fun _ _ hs h =>
  step_keeps_of_ks (P := fun km => km = ks km.pk) (fun key => by rw [ks_pk]) hs h

/-- Settles O20: the three cases of a step, and that a whole SETKEY is always answered. -/
theorem onlySetkeyOrResetChangesTheTables : Obligations.OnlySetkeyOrResetChangesTheTables := by
  intro s t h
  constructor
  · rcases step_keyState_cases h with ⟨-, hk⟩ | ⟨key, rest, hin, -, hk⟩ | ⟨rest, hin, -⟩
    · exact .inl hk
    · exact .inr (.inl ⟨key, rest, hin, hk⟩)
    · exact .inr (.inr ⟨rest, hin⟩)
  · intro key rest hin
    rw [step_setkey hin] at h; cases h; rfl

/-! ### Without a key -/

/-- R183: without a key both block commands of legal length answer `KeyNotLoaded` and change nothing else. -/
theorem exec_block_noKey {s : State} (hv : s.keyValid = false) (b : Block) :
    exec (.encblk b.toList) s = .next { s with outbox := s.outbox ++ [[0x07, 0x00, 0x00]] } ∧
    exec (.decblk b.toList) s = .next { s with outbox := s.outbox ++ [[0x07, 0x00, 0x00]] } :=
  ⟨blockCommand_noKey b.length_toList hv, blockCommand_noKey b.length_toList hv⟩

/-- Settles O21: the three cases of a step say where the flag can rise and fall. -/
theorem keyValidChangesOnlyAsStated : Obligations.KeyValidChangesOnlyAsStated := by
  refine ⟨reset_keyValid, fun s t h => ⟨?rises, ?set, ?falls, ?cleared, fun b hv => exec_block_noKey hv b⟩⟩
  case rises =>
    intro hs ht
    rcases step_keyState_cases h with ⟨hv, -⟩ | ⟨key, rest, hin, -, -⟩ | ⟨-, -, hv⟩
    · rw [hv, hs] at ht; cases ht
    · exact ⟨key, rest, hin⟩
    · rw [hv] at ht; cases ht
  case set =>
    intro key rest hin
    rw [step_setkey hin] at h; cases h; rfl
  case falls =>
    intro hs ht
    rcases step_keyState_cases h with ⟨hv, -⟩ | ⟨-, -, -, hv, -⟩ | ⟨rest, hin, -⟩
    · rw [hv, hs] at ht; cases ht
    · rw [hv] at ht; cases ht
    · exact ⟨rest, hin⟩
  case cleared =>
    intro rest hin
    rw [step_reset hin] at h; cases h; rfl

/-- Settles O42: there is no key after reset. -/
theorem keyInvariantHoldsAtReset : Obligations.KeyInvariantHoldsAtReset :=
  fun h => absurd (reset_keyValid.symm.trans h) Bool.false_ne_true

/-- Settles O47: the fields after reset, and the block commands without a key. -/
theorem resetLeavesNoKey : Obligations.ResetLeavesNoKey :=
  ⟨reset_keyValid, reset_inbox, reset_outbox, exec_block_noKey reset_keyValid⟩

/-! ### The tables cannot be seen without a key -/

/-- How an outcome `o'` may differ from an outcome `o` when the core behind `o'` started with the tables `km'` in place of
its own: not at all, or there is still no key and the tables are still `km'`. -/
def SameUpToHiddenTables (km' : KeyMaterial) (o o' : Result) : Prop :=
  o = o' ∨ ∃ t : State, t.keyValid = false ∧ o = .next t ∧ o' = .next { t with km := km' }

theorem respond_sameUpToHiddenTables (e : Status) (p : List Byte) {s : State} (hv : s.keyValid = false)
    (km' : KeyMaterial) :
    SameUpToHiddenTables km' (.next (respond e p s)) (.next (respond e p { s with km := km' })) :=
  .inr ⟨respond e p s, hv, rfl, rfl⟩

/-- A block command without a key stops at its checks, before it reads a table (R112). -/
theorem blockCommand_sameUpToHiddenTables (f : KeyMaterial → Block → Block) (p : List Byte) {s : State}
    (hv : s.keyValid = false) (km' : KeyMaterial) :
    SameUpToHiddenTables km' (blockCommand f p s) (blockCommand f p { s with km := km' }) := by
  by_cases hl : p.length = 16
  · rw [blockCommand_noKey hl hv, blockCommand_noKey (s := { s with km := km' }) hl hv]
    exact respond_sameUpToHiddenTables _ _ hv km'
  · rw [blockCommand_badLength hl, blockCommand_badLength hl]
    exact respond_sameUpToHiddenTables _ _ hv km'

/-- SETKEY replaces all seven tables or keeps them, and reads none (R19). -/
theorem execSetkey_sameUpToHiddenTables (p : List Byte) {s : State} (hv : s.keyValid = false) (km' : KeyMaterial) :
    SameUpToHiddenTables km' (execSetkey p s) (execSetkey p { s with km := km' }) := by
  rcases execSetkey_cases p s with ⟨hl, h⟩ | ⟨key, rfl, h⟩
  · rw [h, execSetkey_badLength hl]
    exact respond_sameUpToHiddenTables _ _ hv km'
  · rw [h, execSetkey_ok]
    exact .inl rfl

theorem exec_sameUpToHiddenTables (i : Instr) {s : State} (hv : s.keyValid = false) (km' : KeyMaterial) :
    SameUpToHiddenTables km' (exec i s) (exec i { s with km := km' }) := by
  cases i with
  | setkey p => exact execSetkey_sameUpToHiddenTables p hv km'
  | encblk p => exact blockCommand_sameUpToHiddenTables encryptBlock p hv km'
  | decblk p => exact blockCommand_sameUpToHiddenTables decryptBlock p hv km'

theorem acceptFrame_sameUpToHiddenTables (f : Frame) {s : State} (hv : s.keyValid = false) (km' : KeyMaterial) :
    SameUpToHiddenTables km' (acceptFrame f s) (acceptFrame f { s with km := km' }) := by
  cases hd : decodeFrame f with
  | command i =>
    rw [acceptFrame_command hd, acceptFrame_command hd]
    exact exec_sameUpToHiddenTables i hv km'
  | illegal opc p =>
    rw [acceptFrame_illegal hd, acceptFrame_illegal hd]
    exact respond_sameUpToHiddenTables _ _ hv km'
  | malformed why =>
    rw [acceptFrame_malformed hd, acceptFrame_malformed hd]
    exact .inl rfl

/-- A reset replaces the tables without reading them (R30). -/
theorem acceptEvent_sameUpToHiddenTables (e : HostEvent) {s : State} (hv : s.keyValid = false) (km' : KeyMaterial) :
    SameUpToHiddenTables km' (acceptEvent e s) (acceptEvent e { s with km := km' }) := by
  cases e with
  | command f => exact acceptFrame_sameUpToHiddenTables f hv km'
  | reset => exact .inl rfl
  | overlapped f g => exact .inl rfl

theorem step_sameUpToHiddenTables {s : State} (hv : s.keyValid = false) (km' : KeyMaterial) :
    SameUpToHiddenTables km' (step s) (step { s with km := km' }) := by
  obtain ⟨keyValid, km, inbox, outbox, draws⟩ := s
  cases inbox with
  | nil => exact .inr ⟨_, hv, rfl, rfl⟩
  | cons e rest => exact acceptEvent_sameUpToHiddenTables e (s := ⟨keyValid, km, rest, outbox, draws⟩) hv km'

/-- Runs of at least one step agree when their first steps do. -/
theorem run_succ_congr {s s' : State} (h : step s = step s') (k : Nat) : core.run (k + 1) s = core.run (k + 1) s' := by
  cases hs : step s with
  | next t => rw [run_next hs, run_next (h ▸ hs)]
  | fault r => rw [run_fault hs, run_fault (h ▸ hs)]
  | refused r => rw [run_refused hs, run_refused (h ▸ hs)]

/-- Settles O49, by induction on the steps: each step removes the difference or keeps it in tables that are hidden. -/
theorem unspecifiedTablesAreUnobservable : Obligations.UnspecifiedTablesAreUnobservable := by
  intro n
  induction n with
  | zero => intro s km' _; rfl
  | succ n ih =>
    intro s km' hv
    rcases step_sameUpToHiddenTables hv km' with heq | ⟨t, htv, hs, hs'⟩
    · exact congrArg observe (run_succ_congr heq n)
    · rw [run_next hs, run_next hs']
      exact ih t km' htv

end Sys2Proof.Machine
end

