-- ==== Sys2Proof/Proofs/Tables.lean ====
section
/-! PROOFS. How the block commands depend on the tables (10_state.md R17, R18; 93_implementation_defined.md U3, U9). -/

namespace Sys2Proof.Machine

/-- R96: a round reads bits 0 to 22 of its constant. -/
theorem encryptRound_rc_congr {km : KeyMaterial} {rc' : RoundTable}
    (h : ∀ r, readRoundTable rc' r &&& 0x007FFFFF = readRoundTable km.rc r &&& 0x007FFFFF) :
    encryptRound { km with rc := rc' } = encryptRound km := by
  funext st rnd
  rw [encryptRound, encryptRound, mix_congr (h rnd)]

theorem decryptRound_rc_congr {km : KeyMaterial} {rc' : RoundTable}
    (h : ∀ r, readRoundTable rc' r &&& 0x007FFFFF = readRoundTable km.rc r &&& 0x007FFFFF) :
    decryptRound { km with rc := rc' } = decryptRound km := by
  funext st rnd
  rw [decryptRound, decryptRound, invMix_congr (h rnd)]

/-- Settles O30: the rounds are the only readers of `RC`. -/
theorem upperConstantBitsAreUnused : Obligations.UpperConstantBitsAreUnused := by
  intro km rc' b h
  constructor
  · rw [encryptBlock, encryptBlock, encryptRound_rc_congr h]
  · rw [decryptBlock, decryptBlock, decryptRound_rc_congr h]

/-- U3: the one case of a block command that a whole block, a key and inconsistent tables leave. -/
theorem blockCommand_inconsistent (f : KeyMaterial → Block → Block) {p : List Byte} {s : State} (hl : p.length = 16)
    (hv : s.keyValid = true) (ht : tablesInvertible s.km = false) :
    blockCommand f p s = .refused .inconsistentTables := by
  rcases blockCommand_cases f p s with ⟨hl', -⟩ | ⟨-, hv', -⟩ | ⟨-, ht', -⟩ | ⟨-, -, -, h⟩
  · exact absurd hl hl'
  · rw [hv] at hv'; cases hv'
  · rw [ht] at ht'; cases ht'
  · exact h

/-- Settles O25: both block commands are refused by the same check. -/
theorem inconsistentTablesAreRefused : Obligations.InconsistentTablesAreRefused := fun _ _ hl hv ht =>
  ⟨blockCommand_inconsistent encryptBlock hl hv ht, blockCommand_inconsistent decryptBlock hl hv ht⟩

end Sys2Proof.Machine
end

