-- ==== Sys2Proof/Proofs/LatestKey.lean ====
section
/-! PROOFS. A block command reads the tables of the latest successful SETKEY (20_memory.md R41, R44): one step of each
command sent as a frame, what the commands between keep, and the run over them by induction. -/

namespace Sys2Proof.Machine

/-- R51, R57: the decoder reads back every command that fits a frame. -/
theorem decodeFrame_encode {i : Instr} (h : i.wellFormed = true) : decodeFrame (encode i) = .command i := by
  rw [encode, decodeFrame_commandFrame i.opcode (wellFormed_iff.mp h)]
  exact decodeOpcode_eq_command.mpr ⟨rfl, rfl⟩

/-- R54, R55: the step that takes the frame of a command runs the command. -/
theorem step_encode {i : Instr} (hw : i.wellFormed = true) {s : State} {rest : List HostEvent}
    (h : s.inbox = .command (encode i) :: rest) : step s = exec i { s with inbox := rest } := by
  rw [step_frame h, acceptFrame_command (decodeFrame_encode hw)]

/-- The key state that a successful SETKEY with `key` leaves (R19, R21, R70). -/
def State.HoldsKey (key : KeyTable) (s : State) : Prop := s.keyValid = true ∧ s.km = ks key

theorem State.HoldsKey.keyInvariant {key : KeyTable} {s : State} (h : s.HoldsKey key) : s.KeyInvariant := fun _ => by
  rw [h.2]; exact ⟨ks_invertible key, ks_secondaryMatches key⟩

/-- R70: a SETKEY with a whole key is answered and leaves its key. -/
theorem step_setkey_holdsKey {key : KeyTable} {s : State} {rest : List HostEvent}
    (h : s.inbox = .command (encode (.setkey key.toList)) :: rest) :
    ∃ t : State, step s = .next t ∧ t.inbox = rest ∧ t.HoldsKey key :=
  ⟨_, (step_encode (setkey_wellFormed key) h).trans (execSetkey_ok key _), rfl, rfl, rfl⟩

/-- R71, R113: a block command, or a SETKEY without a whole key, is answered and leaves the key that is there. -/
theorem exec_keeps_holdsKey {key : KeyTable} {i : Instr} {s : State} (hs : s.HoldsKey key)
    (hi : ∀ p : List Byte, i = .setkey p → p.length ≠ 32) :
    ∃ t : State, exec i s = .next t ∧ t.inbox = s.inbox ∧ t.HoldsKey key := by
  obtain ⟨t, -, hx, hin, -, -⟩ := exec_answers (i := i) hs.keyInvariant
  refine ⟨t, hx, hin, ?_⟩
  rcases exec_keyState_cases hx with ⟨hv, hk⟩ | ⟨other, hset, -, -⟩
  · exact ⟨hv.trans hs.1, hk.trans hs.2⟩
  · exact absurd other.length_toList (hi _ hset)

/-- R41, R44: a run over the frames of such commands leaves the key that is there, and what comes after them. -/
theorem run_keeps_holdsKey {key : KeyTable} {rest : List HostEvent} (k : Nat) {is : List Instr}
    (his : ∀ i ∈ is, i.wellFormed = true ∧ ∀ p : List Byte, i = .setkey p → p.length ≠ 32) {s : State}
    (hs : s.HoldsKey key) (hin : s.inbox = is.map (fun i => .command (encode i)) ++ rest) :
    ∃ t : State, core.run (is.length + k) s = core.run k t ∧ t.inbox = rest ∧ t.HoldsKey key := by
  induction is generalizing s with
  | nil => exact ⟨s, by rw [List.length_nil, Nat.zero_add], hin, hs⟩
  | cons i is ih =>
    obtain ⟨⟨hw, hi⟩, his⟩ := List.forall_mem_cons.mp his
    obtain ⟨u, hx, huin, hu⟩ := exec_keeps_holdsKey
      (s := { s with inbox := is.map (fun i => .command (encode i)) ++ rest }) hs hi
    obtain ⟨t, hrun, ht⟩ := ih his hu huin
    refine ⟨t, ?_, ht⟩
    rw [List.length_cons, Nat.add_right_comm, run_next ((step_encode hw hin).trans hx), hrun]

/-- R110, R111: with a key installed, a block command on a whole block answers its transform under the tables of that
key. -/
theorem blockCommand_holdsKey {key : KeyTable} {s : State} (hs : s.HoldsKey key)
    (f : KeyMaterial → Block → Block) (b : Block) :
    blockCommand f b.toList s = .next (respond .ok (f (ks key) b).toList s) := by
  rw [blockCommand_ok hs.1 (hs.keyInvariant hs.1).1, hs.2]

/-- Either block command, sent as a frame to a core with a key (R110, R111). -/
theorem step_block_holdsKey {key : KeyTable} {last : Instr} {b result : Block} {s : State} {rest : List HostEvent}
    (hs : s.HoldsKey key) (hlast : (last = .encblk b.toList ∧ result = encryptBlock (ks key) b) ∨
      (last = .decblk b.toList ∧ result = decryptBlock (ks key) b))
    (h : s.inbox = .command (encode last) :: rest) :
    step s = .next (respond .ok result.toList { s with inbox := rest }) := by
  rcases hlast with ⟨rfl, rfl⟩ | ⟨rfl, rfl⟩
  · exact (step_encode (encblk_wellFormed b) h).trans (blockCommand_holdsKey (s := { s with inbox := rest }) hs _ b)
  · exact (step_encode (decblk_wellFormed b) h).trans (blockCommand_holdsKey (s := { s with inbox := rest }) hs _ b)

/-- Settles O46: SETKEY installs the key, the commands between keep it, and the last command reads it. -/
theorem blockCommandsUseTheLatestKey : Obligations.BlockCommandsUseTheLatestKey := by
  intro key between last b result s hlast hbetween hin
  obtain ⟨u, hfirst, huin, hu⟩ := step_setkey_holdsKey hin
  obtain ⟨v, hrun, hvin, hv⟩ := run_keeps_holdsKey 1 hbetween hu (huin.trans List.map_append)
  have hanswer := step_block_holdsKey hv hlast hvin
  refine ⟨_, (run_next hfirst _).trans (hrun.trans (run_next hanswer 0)), ?_⟩
  rw [respond_outbox, List.getLast?_concat, responseFrame_block]

end Sys2Proof.Machine
end

