-- ==== Sys2Proof/Proofs/Frames.lean ====
section
/-! PROOFS. Command frames: decoder and encoder are inverse, the opcode selects the command, and which frames have
a step (30_encoding.md R51 to R58). -/

namespace Sys2Proof.Machine

/-! ### The decoder -/

/-- R54, R57: a whole frame decodes by its opcode. -/
theorem decodeFrame_whole (opc : Byte) {lo hi : Byte} {p : List Byte} (h : p.length = lenField lo hi) :
    decodeFrame (opc :: lo :: hi :: p) = decodeOpcode opc p := by
  rw [decodeFrame_cons, if_pos h]

/-- R51, R54: a frame is whole, and then its opcode decides, or it is no frame. -/
theorem decodeFrame_cases (f : Frame) :
    (∃ opc lo hi p, f = opc :: lo :: hi :: p ∧ p.length = lenField lo hi ∧ decodeFrame f = decodeOpcode opc p) ∨
    (∃ why, decodeFrame f = .malformed why) := by
  by_cases hm : ∃ why, decodeFrame f = .malformed why
  · exact .inr hm
  · rw [decodeFrame_malformed_iff] at hm
    push Not at hm
    obtain ⟨opc, lo, hi, p, rfl, hl⟩ := hm
    exact .inl ⟨opc, lo, hi, p, rfl, hl, decodeFrame_whole opc hl⟩

/-- R51, R56: a whole frame is the one that its opcode and payload are written as. -/
theorem commandFrame_eq {opc lo hi : Byte} {p : List Byte} (h : p.length = lenField lo hi) :
    commandFrame opc p = opc :: lo :: hi :: p := by
  obtain ⟨hlo, hhi⟩ := len_lenField lo hi
  rw [commandFrame, h, hlo, hhi]

/-- R56: the frames that decode to a command are the one encoding of that command, where it fits a frame. -/
theorem decodeFrame_eq_command_iff {f : Frame} {i : Instr} :
    decodeFrame f = .command i ↔ i.wellFormed = true ∧ encode i = f := by
  constructor
  · intro h
    rcases decodeFrame_cases f with ⟨opc, lo, hi, p, rfl, hl, hd⟩ | ⟨why, hd⟩
    · obtain ⟨rfl, rfl⟩ := decodeOpcode_eq_command.mp (hd.symm.trans h)
      exact ⟨wellFormed_iff.mpr (hl ▸ lenField_le lo hi), commandFrame_eq hl⟩
    · rw [hd] at h; cases h
  · rintro ⟨hw, rfl⟩
    exact decodeFrame_encode hw

/-- Settles O1: the length bytes and the opcode byte read back as they were written. -/
theorem decodeOfEncodeIsTheCommand : Obligations.DecodeOfEncodeIsTheCommand := fun _ hw => decodeFrame_encode hw

/-- Settles O2: the header of a whole frame is determined by the opcode and the payload. -/
theorem encodeOfDecodeIsTheFrame : Obligations.EncodeOfDecodeIsTheFrame := fun _ _ h =>
  decodeFrame_eq_command_iff.mp h

/-- R57, R58: the opcode map, byte by byte. -/
theorem decodeOpcode_eq (opc : Byte) (p : List Byte) :
    decodeOpcode opc p =
      if opc = 0x01 then .command (.setkey p)
      else if opc = 0x02 then .command (.encblk p)
      else if opc = 0x03 then .command (.decblk p)
      else .illegal opc p := by
  split_ifs with h1 h2 h3
  · exact decodeOpcode_eq_command.mpr ⟨h1, rfl⟩
  · exact decodeOpcode_eq_command.mpr ⟨h2, rfl⟩
  · exact decodeOpcode_eq_command.mpr ⟨h3, rfl⟩
  · exact decodeOpcode_illegal p h1 h2 h3

/-- Settles O3: a whole frame is decoded by the opcode map. -/
theorem opcodeAloneSelectsTheCommand : Obligations.OpcodeAloneSelectsTheCommand := by
  intro opc lo hi p hl
  rw [decodeFrame_whole opc hl, decodeOpcode_eq]

/-- Settles O4: the frames and words are literals, and the decoder is evaluated on them. -/
theorem wordsOfTheSpecDecode : Obligations.WordsOfTheSpecDecode := by
  unfold Obligations.WordsOfTheSpecDecode
  decide

/-! ### The step on a frame -/

/-- Settles O5: taking the frame off the channel, then decoding it. -/
theorem stepRunsTheDecodedCommand : Obligations.StepRunsTheDecodedCommand := by
  intro s f rest i hin hd
  rw [step_frame hin, acceptFrame_command hd]

theorem decodeTableWord_eq_some {nbits w : Nat} {i : Instr} :
    decodeTableWord nbits w = some i ↔ decodeFrame (frameOfWord nbits w) = .command i := by
  cases hd : decodeFrame (frameOfWord nbits w) <;> simp [decodeTableWord, hd]

/-- Settles O6: the word's frame is the next one on the channel, and decodes to the command. -/
theorem tableWordRunsNext : Obligations.TableWordRunsNext := by
  intro s nbits w i hw
  rw [State.withFetchWord, step_sendNext, acceptFrame_command (decodeTableWord_eq_some.mp hw)]

/-- An instruction is never refused for its frame: the only refusal is of inconsistent tables. -/
theorem exec_ne_malformedFrame (i : Instr) (s : State) (why : FrameError) :
    exec i s ≠ .refused (.malformedFrame why) := by
  rcases exec_cases i s with ⟨e, -, -, hx⟩ | ⟨key, -, hx⟩ | ⟨-, -, b, ⟨-, hx⟩ | ⟨-, hx⟩⟩ | ⟨-, -, hx⟩ <;>
    simp [hx]

/-- R54: the core refuses a byte sequence as malformed exactly where the decoder does. -/
theorem acceptFrame_malformed_iff {f : Frame} {s : State} {why : FrameError} :
    acceptFrame f s = .refused (.malformedFrame why) ↔ decodeFrame f = .malformed why := by
  refine ⟨fun h => ?_, fun h => acceptFrame_malformed h s⟩
  cases hd : decodeFrame f with
  | command i =>
    rw [acceptFrame_command hd] at h
    exact absurd h (exec_ne_malformedFrame i s why)
  | illegal opc p => rw [acceptFrame_illegal hd] at h; cases h
  | malformed why' => rw [acceptFrame_malformed hd] at h; cases h; rfl

/-- Settles O8: the step refuses exactly where the decoder does, and the decoder exactly the frames that are not
whole. -/
theorem malformedFramesHaveNoStep : Obligations.MalformedFramesHaveNoStep := by
  intro s f rest hin
  simp only [step_frame hin, acceptFrame_malformed_iff]
  exact decodeFrame_malformed_iff

/-- Settles O9: the frame is whole, its opcode is illegal, and the answer is the `IllegalCommand` response. -/
theorem illegalOpcodesAreAnswered : Obligations.IllegalOpcodesAreAnswered := by
  intro s opc lo hi p rest h1 h2 h3 hl hin
  have hd : decodeFrame (opc :: lo :: hi :: p) = .illegal opc p :=
    (decodeFrame_whole opc hl).trans (decodeOpcode_illegal p h1 h2 h3)
  rw [step_frame hin, acceptFrame_illegal hd, respond_eq, responseFrame_nil]
  rfl

end Sys2Proof.Machine
end

