-- ==== Sys2Proof/Proofs/Responses.lean ====
section
/-! PROOFS. One response per command frame, of the form R53 gives it (30_encoding.md R53, R55). -/

namespace Sys2Proof.Machine

/-! ### The form of a response -/

/-- R53: the response frames that a command with opcode byte `opc` can get: sixteen result bytes after a successful
block command, an empty `OK` after a SETKEY, or an empty error. -/
def AnswersOpcode (opc : Byte) (r : Frame) : Prop :=
  ((opc = 0x02 ∨ opc = 0x03) ∧ ∃ b : Block, r = 0x00 :: 0x10 :: 0x00 :: b.toList) ∨
  (opc = 0x01 ∧ r = [0x00, 0x00, 0x00]) ∨
  (∃ code : Byte, code ≠ 0x00 ∧ r = [code, 0x00, 0x00])

theorem answersOpcode_error (opc : Byte) {e : Status} (he : e ≠ .ok) : AnswersOpcode opc (responseFrame e []) :=
  .inr (.inr ⟨statusCode e, mt statusCode_eq_zero.mp he, responseFrame_nil e⟩)

theorem answersOpcode_block {opc : Byte} (h : opc = 0x02 ∨ opc = 0x03) (b : Block) :
    AnswersOpcode opc (responseFrame .ok b.toList) :=
  .inl ⟨h, b, responseFrame_block b⟩

theorem answersOpcode_setkey : AnswersOpcode 0x01 (responseFrame .ok []) := .inr (.inl ⟨rfl, rfl⟩)

/-- R53: an answered instruction adds one response frame, of its opcode's form. -/
theorem exec_answersOpcode {i : Instr} {s t : State} (h : exec i s = .next t) :
    ∃ r : Frame, t.outbox = s.outbox ++ [r] ∧ AnswersOpcode i.opcode r := by
  rcases exec_cases i s with ⟨e, he, -, hx⟩ | ⟨key, rfl, hx⟩ | ⟨-, -, b, ⟨rfl, hx⟩ | ⟨rfl, hx⟩⟩ | ⟨-, -, hx⟩ <;>
    rw [hx] at h <;> cases h
  · exact ⟨_, rfl, answersOpcode_error _ he⟩
  · exact ⟨_, rfl, answersOpcode_setkey⟩
  · exact ⟨_, rfl, answersOpcode_block (.inl rfl) _⟩
  · exact ⟨_, rfl, answersOpcode_block (.inr rfl) _⟩

/-- Settles O10: a frame that is answered is a command's, or has an illegal opcode. -/
theorem responseFrames : Obligations.ResponseFrames := by
  intro s t opc lo hi p rest hin h
  rw [step_frame hin] at h
  cases hd : decodeFrame (opc :: lo :: hi :: p) with
  | command i =>
    obtain ⟨rfl, -⟩ := decodeFrame_command_inv hd
    rw [acceptFrame_command hd] at h
    exact exec_answersOpcode (s := { s with inbox := rest }) h
  | illegal o q =>
    rw [acceptFrame_illegal hd] at h; cases h
    exact ⟨_, rfl, answersOpcode_error opc (by decide)⟩
  | malformed why => rw [acceptFrame_malformed hd] at h; cases h

/-! ### Runs over command frames -/

/-- R55, R18: from consistent tables every whole frame, legal or not, is answered with one response, which leaves the
events to come alone and the tables consistent. -/
theorem acceptFrame_answers {f : Frame} {s : State} (hs : s.KeyInvariant) (hf : ∀ why, decodeFrame f ≠ .malformed why) :
    ∃ t r, acceptFrame f s = .next t ∧ t.inbox = s.inbox ∧ t.KeyInvariant ∧ t.outbox = s.outbox ++ [r] := by
  cases hd : decodeFrame f with
  | command i => rw [acceptFrame_command hd]; exact exec_answers hs
  | illegal opc p => exact ⟨_, _, acceptFrame_illegal hd s, rfl, hs, rfl⟩
  | malformed why => exact absurd hd (hf why)

/-- Settles O45, by induction on the frames: the first step takes the first frame and emits the first response, and
leaves a core of which the statement holds for the other frames. -/
theorem oneCommandOneResponse : Obligations.OneCommandOneResponse := by
  intro fs
  induction fs with
  | nil =>
    intro s _ _ hin
    refine ⟨[], rfl, fun k hk => ⟨s, ?_, by simpa using hin, by simp⟩⟩
    rw [Nat.le_zero.mp hk]; rfl
  | cons f fs ih =>
    intro s hs hfs hin
    obtain ⟨hf, hfs⟩ := List.forall_mem_cons.mp hfs
    obtain ⟨u, r, hx, huin, hu, huout⟩ := acceptFrame_answers (s := { s with inbox := fs.map .command }) hs hf
    have hstep : step s = .next u := (step_frame hin).trans hx
    obtain ⟨rs, hlen, hruns⟩ := ih u hu hfs huin
    refine ⟨r :: rs, congrArg (· + 1) hlen, fun k hk => ?_⟩
    cases k with
    | zero => exact ⟨s, rfl, hin, by simp⟩
    | succ k =>
      obtain ⟨t, hrun, htin, htout⟩ := hruns k (Nat.le_of_succ_le_succ hk)
      exact ⟨t, (run_next hstep k).trans hrun, htin, by simp [htout, huout]⟩

end Sys2Proof.Machine
end

