-- ==== Sys2Proof/Proofs/Assembly.lean ====
section
/-! PROOFS. The assembler reads the lines that commands are written as (30_encoding.md R59). -/

namespace Sys2Proof.Machine

/-! ### Hexadecimal -/

/-- R139: reading back the digits of a byte sequence. -/
theorem hexToBytes_bytesToHex (bs : List Byte) : hexToBytes (bytesToHex bs) = .ok bs := by
  induction bs with
  | nil => rfl
  | cons b bs ih =>
    have hb : b.toNat < 256 := b.isLt
    have hdigits : bytesToHex (b :: bs) = hexDigit (b.toNat / 16) :: hexDigit (b.toNat % 16) :: bytesToHex bs := rfl
    have hvalue : BitVec.ofNat 8 (16 * (b.toNat / 16) + b.toNat % 16) = b := by
      rw [Nat.div_add_mod, BitVec.ofNat_toNat, BitVec.setWidth_eq]
    rw [hdigits, hexToBytes, hexValue_hexDigit _ (by omega), hexValue_hexDigit _ (by omega), ih]
    simp only [hvalue]

theorem bytesToHex_length (bs : List Byte) : (bytesToHex bs).length = 2 * bs.length := by
  simp [bytesToHex, List.length_flatMap, Nat.mul_comm]

theorem hexDigit_not_space : ∀ n < 16, (hexDigit n).code ≠ spaceCode := by decide

theorem bytesToHex_no_space (bs : List Byte) : ∀ c ∈ bytesToHex bs, c.code ≠ spaceCode := by
  intro c hc
  obtain ⟨b, -, hc⟩ := List.mem_flatMap.mp hc
  have hb : b.toNat < 256 := b.isLt
  rcases List.mem_pair.mp hc with rfl | rfl
  · exact hexDigit_not_space _ (by omega)
  · exact hexDigit_not_space _ (by omega)

/-- R59: hexadecimal written with spaces anywhere reads as the bytes. -/
theorem readHex_spaced {t : Text} {bs : List Byte} (h : t.filter (fun c => c.code != spaceCode) = bytesToHex bs) :
    readHex t = some bs := by
  simp [readHex, h, bytesToHex_length, hexToBytes_bytesToHex]

theorem readPayload_spaced {t : Text} {bs : List Byte} (h : t.filter (fun c => c.code != spaceCode) = bytesToHex bs)
    (hl : bs.length ≤ Config.maxPayload) : readPayload t = some bs := by
  simp only [readPayload, readHex_spaced h, if_pos hl]

/-! ### The first word of a line -/

/-- The first word of a line ends at the first space. -/
theorem firstWord_append {word : Text} (h : ∀ c ∈ word, c.code ≠ spaceCode) (rest : Text) :
    firstWord (word ++ ⟨spaceCode⟩ :: rest) = (word, rest) := by
  induction word with
  | nil => simp [firstWord]
  | cons c word ih =>
    obtain ⟨hc, hword⟩ := List.forall_mem_cons.mp h
    simp [firstWord, hc, ih hword]

theorem mnemonicText_no_space (i : Instr) : ∀ c ∈ mnemonicText i, c.code ≠ spaceCode := by
  cases i <;> simp only [mnemonicText] <;> decide

/-- R59: a mnemonic names its opcode. -/
theorem mnemonicText_eq_iff {i j : Instr} : mnemonicText i = mnemonicText j ↔ i.opcode = j.opcode := by
  cases i <;> cases j <;> simp [mnemonicText, bytesToText, Instr.opcode]

/-- R59: a line that starts with a command's mnemonic is that command, with the payload that the rest of the line is. -/
theorem assemble_mnemonic {i : Instr} {rest : Text} (h : readPayload rest = some i.payload) :
    assemble (mnemonicText i ++ ⟨spaceCode⟩ :: rest) = some (encode i) := by
  simp only [assemble, firstWord_append (mnemonicText_no_space i), mnemonicText_eq_iff, h]
  cases i <;> simp [Instr.opcode, Instr.payload]

/-- Settles O60: the mnemonic selects the command, and the spaced hexadecimal reads as its payload; the line as it is
written has no spaces in the hexadecimal. -/
theorem assemblyOfTheWrittenLine : Obligations.AssemblyOfTheWrittenLine := by
  intro i hw
  have hspaced : ∀ spaced : Text, spaced.filter (fun c => c.code != spaceCode) = bytesToHex i.payload →
      assemble (mnemonicText i ++ ⟨spaceCode⟩ :: spaced) = some (encode i) := fun _ h =>
    assemble_mnemonic (readPayload_spaced h (wellFormed_iff.mp hw))
  refine ⟨hspaced _ (List.filter_eq_self.mpr fun c hc => ?_), hspaced⟩
  exact bne_iff_ne.mpr (bytesToHex_no_space _ c hc)

end Sys2Proof.Machine
end

