-- ==== Sys2Proof/Proofs/KeySchedule.lean ====
section
/-! PROOFS. SETKEY and the function `KS` (40_keyschedule.md R70, R71, R79 to R81), and what of the key material the block
commands read (40_keyschedule.md R83; 10_state.md R16). -/

namespace Sys2Proof.Machine

/-! ### The generator stream -/

/-- R81: a shuffle leaves the generator advanced by the outputs that it drew. -/
theorem shuffle_state (p : KeyScheduleParts) {α : Type} {n : Nat} (a : Vector α n) (g : Nat) :
    (shuffle p a g).2 = (fun g => (p.next32 g).2)^[p.shuffleDraws n g] g :=
  drawWords_state p _ g

/-- R79: the round constants are drawn where the two shuffles, one after the other, leave the generator. -/
theorem keySchedule_rc (p : KeyScheduleParts) (key : KeyTable) :
    (keySchedule p key).rc = (drawWords p 16 (shuffle p (identitySequence 16)
      (shuffle p (identitySequence 256) (p.init (p.hash key))).2).2).1 := rfl

/-- Settles O19: the shuffles' draws and the constants' index add up to one number of advances from the seed. -/
theorem keyScheduleUsesOneStream : Obligations.KeyScheduleUsesOneStream := by
  intro p key r after g0 drawn1 drawn2
  have hstate : (shuffle p (identitySequence 16) (shuffle p (identitySequence 256) g0).2).2 =
      after^[drawn1 + drawn2] g0 := by
    rw [shuffle_state, shuffle_state, Nat.add_comm drawn1, Function.iterate_add_apply]
  rw [readRoundTable, keySchedule_rc, drawWords_get, hstate, ← Function.iterate_add_apply, Nat.add_comm r.val]

/-! ### The tables of a key -/

/-- R74, entry by entry. -/
theorem keySchedule_sk_get (p : KeyScheduleParts) (key : KeyTable) (i : Fin 32) :
    (keySchedule p key).sk[i] = key[i] ^^^ 0x36 := by
  simp [keySchedule_sk]

/-- Settles O18: each property holds whatever the open parts are, so of `ks` and of `ksRef` alike. -/
theorem keyScheduleProperties : Obligations.KeyScheduleProperties := by
  intro key km hkm
  obtain ⟨p, rfl⟩ : ∃ p, km = keySchedule p key := by
    rcases hkm with hks | hksRef
    · exact ⟨Config.keyScheduleParts, hks⟩
    · exact ⟨partsRef, hksRef⟩
  have hinv := keySchedule_invertible p key
  obtain ⟨hisbox, hipt⟩ := tablesInvertible_iff.mp hinv
  exact ⟨keySchedule_pk p key, keySchedule_sk_get p key, sbox_bijective hinv, hisbox, pt_bijective hinv, hipt⟩

/-! ### SETKEY -/

/-- Settles O16: the two cases of the length check. -/
theorem setkeyInstallsTheKey : Obligations.SetkeyInstallsTheKey :=
  ⟨fun key s => execSetkey_ok key s, fun _ s hl => execSetkey_badLength hl s⟩

/-- Settles O17: a failed SETKEY adds its response and no more, and what a command answers does not depend on the
responses before it. -/
theorem failedSetkeyKeepsTheOldKey : Obligations.FailedSetkeyKeepsTheOldKey := by
  intro s p hl
  refine ⟨respond .invalidKeySize [] s, execSetkey_badLength hl s, rfl, rfl, fun i u hu => ?_⟩
  obtain ⟨r, hout, hsame⟩ := exec_respects hu
  exact ⟨r, hout, hsame _ rfl rfl rfl rfl⟩

/-! ### What the rounds read -/

/-- R110: a round of ENCBLK reads `SBOX`, `PT` and `RC`. -/
theorem encryptRound_congr {km km' : KeyMaterial} (hsbox : km'.sbox = km.sbox) (hpt : km'.pt = km.pt)
    (hrc : km'.rc = km.rc) : encryptRound km' = encryptRound km := by
  funext st rnd
  rw [encryptRound, encryptRound, hsbox, hpt, hrc]

/-- R111: a round of DECBLK reads `ISBOX`, `PT` and `RC`. -/
theorem decryptRound_congr {km km' : KeyMaterial} (hisbox : km'.isbox = km.isbox) (hpt : km'.pt = km.pt)
    (hrc : km'.rc = km.rc) : decryptRound km' = decryptRound km := by
  funext st rnd
  rw [decryptRound, decryptRound, hisbox, hpt, hrc]

/-- Settles O29: the rounds read neither key table nor `IPT`, and a whitening reads the first 16 entries of its key
table. -/
theorem upperKeyBytesAreNotWhitening : Obligations.UpperKeyBytesAreNotWhitening := by
  intro km km' b hsbox hisbox hpt hrc hkeys
  have hpk : whiten km'.pk = whiten km.pk := funext (whiten_congr fun i hi => (hkeys i hi).1)
  have hsk : whiten km'.sk = whiten km.sk := funext (whiten_congr fun i hi => (hkeys i hi).2)
  constructor
  · rw [encryptBlock, encryptBlock, hpk, hsk, encryptRound_congr hsbox hpt hrc]
  · rw [decryptBlock, decryptBlock, hpk, hsk, decryptRound_congr hisbox hpt hrc]

end Sys2Proof.Machine
end

