-- ==== Sys2Proof/Proofs/RoundPrimitives.lean ====
section
/-! PROOFS. The round primitives of the datapath (41_round_primitives.md R91 to R104): what each does to a lane, the
inverse pairs, and that each is linear or affine over XOR. -/

namespace Sys2Proof.Machine

/-! ### Whiten and Substitute -/

/-- R91: the index `i mod 32` is `i`. -/
theorem readKeyTable_eq (k : KeyTable) (i : Lane) :
    readKeyTable k i = k[i.val]'(Nat.lt_trans (lane_lt i) (by decide)) := by
  simp only [readKeyTable, Config.keyIndexMod, lane_mod_32]

/-- Settles O31: lane by lane, the index being the lane. -/
theorem whitenLanes : Obligations.WhitenLanes := fun k st =>
  ⟨fun i => by rw [readLane_whiten, readKeyTable_eq], whiten_whiten k st⟩

/-- Settles O32: both are the same table reading. -/
theorem substituteLanes : Obligations.SubstituteLanes := fun t st i =>
  ⟨readLane_substitute t st i, readLane_invSubstitute t st i⟩

/-! ### Permute -/

theorem block_toList (st : Block) : st.toList = List.ofFn (readLane st) := by
  rw [← Vector.toList_ofFn]
  exact congrArg Vector.toList (block_ext fun i => (readLane_ofFn (readLane st) i).symm)

/-- R94: the lanes of `st` are the lanes of the result, read in the order of `PT`. -/
theorem permute_perm {pt : LaneTable} (hpt : Function.Bijective (readLaneTable pt)) (st : Block) :
    (permute pt st).toList.Perm st.toList := by
  have hread : readLane (permute pt st) ∘ Equiv.ofBijective _ hpt = readLane st :=
    funext (readLane_permute hpt.1 st)
  rw [block_toList, block_toList, ← hread]
  exact (Equiv.Perm.ofFn_comp_perm (Equiv.ofBijective _ hpt) _).symm

/-- Settles O33: the scatter writes every lane once. -/
theorem permuteScatters : Obligations.PermuteScatters := fun _ st hpt =>
  ⟨readLane_permute hpt.1 st, permute_perm hpt st⟩

/-- Settles O34, which is the lane rule of InvPermute. -/
theorem invPermuteGathers : Obligations.InvPermuteGathers := readLane_invPermute

/-- R95: the scatter through `IPT` puts at lane `i`, which is `IPT[PT[i]]`, the byte that the gather reads there. -/
theorem invPermuteByScatter_eq {km : KeyMaterial} (h : tablesInvertible km = true) (st : Block) :
    invPermuteByScatter km.ipt st = invPermute km.pt st := by
  have hipt : Function.Injective (readLaneTable km.ipt) := Function.LeftInverse.injective (pt_ipt h)
  refine block_ext fun i => ?_
  have hread := readLane_permute hipt st (readLaneTable km.pt i)
  rwa [(tablesInvertible_iff.mp h).2, ← readLane_invPermute] at hread

/-! ### The key byte of a lane -/

/-- R96: the shift and the mask take eight bits from bit `i` up. -/
theorem mixKeyByte_eq_extractLsb' (rc : Word) (i : Lane) : mixKeyByte rc i = rc.extractLsb' i.val 8 := by
  apply BitVec.eq_of_getLsbD_eq
  intro j hj
  have hmask : ∀ n, n < 8 → BitVec.getLsbD Config.mixMask n = true := by decide
  simp only [mixKeyByte, Config.shiftMod, lane_mod_32, BitVec.getLsbD_setWidth, BitVec.getLsbD_and,
    BitVec.getLsbD_ushiftRight, BitVec.getLsbD_extractLsb', hmask j hj, Bool.and_true]

theorem mixKeyByte_getLsbD (rc : Word) (i : Lane) {j : Nat} (hj : j < 8) :
    (mixKeyByte rc i).getLsbD j = rc.getLsbD (i.val + j) := by
  simp [mixKeyByte_eq_extractLsb', hj]

theorem mixKeyByte_toNat (rc : Word) (i : Lane) : (mixKeyByte rc i).toNat = rc.toNat / 2 ^ i.val % 256 := by
  rw [mixKeyByte_eq_extractLsb', BitVec.extractLsb'_toNat, Nat.shiftRight_eq_div_pow]

/-- R96: the window of the next lane drops the lowest bit and takes bit `i + 8` on top. -/
theorem mixKeyByte_toNat_succ (rc : Word) (i : Lane) (h : i.val + 1 < 16) :
    (mixKeyByte rc ⟨i.val + 1, h⟩).toNat =
      (mixKeyByte rc i).toNat / 2 + 128 * (rc.getLsbD (i.val + 8)).toNat := by
  rw [mixKeyByte_toNat, mixKeyByte_toNat, BitVec.getLsbD, Nat.toNat_testBit, Nat.pow_succ, Nat.pow_add,
    ← Nat.div_div_eq_div_mul, ← Nat.div_div_eq_div_mul]
  omega

/-- Settles O35: each clause reads the window `i + 7` down to `i`. -/
theorem mixKeyByteIsAWindow : Obligations.MixKeyByteIsAWindow := fun rc i =>
  ⟨fun _ => mixKeyByte_getLsbD rc i, mixKeyByte_toNat rc i, mixKeyByte_mask rc i, mixKeyByte_toNat_succ rc i⟩

/-! ### Mix and InvMix, lane by lane -/

/-- Settles O36 by the closed form of the loop. -/
theorem mixUsesNewNeighbours : Obligations.MixUsesNewNeighbours := fun rc st =>
  ⟨readLane_mix_zero rc st, fun i h => readLane_mix_succ rc st ⟨i.val + 1, h⟩ (Nat.succ_ne_zero _)⟩

/-- Settles O37: the key byte and the old neighbour come in either order. -/
theorem invMixUsesOldNeighbours : Obligations.InvMixUsesOldNeighbours := by
  intro rc st
  refine ⟨readLane_invMix_zero rc st, fun i h => ?_⟩
  have hsucc : readLane (invMix rc st) ⟨i.val + 1, h⟩ =
      readLane st ⟨i.val + 1, h⟩ ^^^ mixKeyByte rc ⟨i.val + 1, h⟩ ^^^ readLane st i :=
    readLane_invMix_succ rc st ⟨i.val + 1, h⟩ (Nat.succ_ne_zero _)
  rw [hsucc]
  ac_rfl

/-! ### The inverse pairs -/

/-- R100: a primitive and then its inverse. -/
theorem applyPrimitive_inverse {km : KeyMaterial} (h : tablesInvertible km = true) (x : Block) (p : Primitive) :
    applyPrimitive km (applyPrimitive km x p) p.inverse = x := by
  cases p with
  | whitenPk => exact whiten_whiten _ x
  | whitenSk => exact whiten_whiten _ x
  | substitute => exact invSubstitute_substitute h x
  | invSubstitute => exact substitute_invSubstitute h x
  | permute => exact invPermute_permute (pt_bijective h) x
  | invPermute => exact permute_invPermute (pt_bijective h) x
  | mix rnd => exact invMix_mix _ x
  | invMix rnd => exact mix_invMix _ x

/-- R100, the other direction: a primitive is the inverse of its inverse. -/
theorem applyPrimitive_of_inverse {km : KeyMaterial} (h : tablesInvertible km = true) (x : Block) (p : Primitive) :
    applyPrimitive km (applyPrimitive km x p.inverse) p = x := by
  simpa using applyPrimitive_inverse h x p.inverse

/-- Settles O38 from the pairs, with the two directions of `Primitive.inverse`. -/
theorem primitivesAreInversePairs : Obligations.PrimitivesAreInversePairs := fun _ rc x h =>
  ⟨invSubstitute_substitute h x, substitute_invSubstitute h x, invPermute_permute (pt_bijective h) x,
    permute_invPermute (pt_bijective h) x, invMix_mix rc x, mix_invMix rc x,
    fun p => ⟨applyPrimitive_inverse h x p, applyPrimitive_of_inverse h x p⟩, invPermuteByScatter_eq h x⟩

/-! ### Linear and affine primitives -/

/-- R103: the sum of two blocks, lane by lane. -/
def xorBlocks (a b : Block) : Block := Vector.ofFn fun i => readLane a i ^^^ readLane b i

@[simp] theorem readLane_xorBlocks (a b : Block) (i : Lane) :
    readLane (xorBlocks a b) i = readLane a i ^^^ readLane b i := readLane_ofFn _ i

@[simp] theorem xorBlocks_zero (a : Block) : xorBlocks a (Vector.replicate 16 0) = a :=
  block_ext fun i => by rw [readLane_xorBlocks]; simp [readLane]

theorem permute_xorBlocks {pt : LaneTable} (hpt : Function.Bijective (readLaneTable pt)) (x y : Block) :
    permute pt (xorBlocks x y) = xorBlocks (permute pt x) (permute pt y) := by
  refine block_ext fun j => ?_
  obtain ⟨i, rfl⟩ := hpt.2 j
  simp only [readLane_xorBlocks, readLane_permute hpt.1]

theorem invPermute_xorBlocks (pt : LaneTable) (x y : Block) :
    invPermute pt (xorBlocks x y) = xorBlocks (invPermute pt x) (invPermute pt y) :=
  block_ext fun i => by simp only [readLane_xorBlocks, readLane_invPermute]

/-- R91: the key is added to one of the summands. -/
theorem whiten_xorBlocks (k : KeyTable) (x y : Block) : whiten k (xorBlocks x y) = xorBlocks x (whiten k y) :=
  block_ext fun i => by simp only [readLane_xorBlocks, readLane_whiten, BitVec.xor_assoc]

/-- R96: a window of a sum of constants is the sum of their windows. -/
theorem mixKeyByte_xor (rc rc' : Word) (i : Lane) :
    mixKeyByte (rc ^^^ rc') i = mixKeyByte rc i ^^^ mixKeyByte rc' i := by
  apply BitVec.eq_of_getLsbD_eq
  intro j hj
  simp only [BitVec.getLsbD_xor, mixKeyByte_getLsbD _ _ hj]

/-- The byte `d` lanes below lane `i`, and zero when there is no such lane. -/
def laneBelow (st : Block) (d : Nat) (i : Lane) : Byte :=
  if d ≤ i.val then readLane st ⟨i.val - d, Nat.lt_of_le_of_lt (Nat.sub_le _ _) i.isLt⟩ else 0

theorem laneBelow_xorBlocks (a b : Block) (d : Nat) (i : Lane) :
    laneBelow (xorBlocks a b) d i = laneBelow a d i ^^^ laneBelow b d i := by
  unfold laneBelow
  split <;> simp

/-- R98 as one equation for all lanes. -/
theorem readLane_invMix (rc : Word) (st : Block) (i : Lane) :
    readLane (invMix rc st) i = readLane st i ^^^ mixKeyByte rc i ^^^ laneBelow st 1 i := by
  by_cases hi : i.val = 0
  · obtain rfl : i = 0 := Fin.ext hi
    simp [readLane_invMix_zero, laneBelow]
  · rw [readLane_invMix_succ _ _ _ hi, laneBelow, if_pos (Nat.one_le_iff_ne_zero.mpr hi)]

/-- R103: InvMix is linear in the constant and the block together. -/
theorem invMix_xorBlocks (rc rc' : Word) (x y : Block) :
    invMix (rc ^^^ rc') (xorBlocks x y) = xorBlocks (invMix rc x) (invMix rc' y) :=
  block_ext fun i => by
    simp only [readLane_xorBlocks, readLane_invMix, mixKeyByte_xor, laneBelow_xorBlocks]
    ac_rfl

/-- R103: so is Mix, the inverse of InvMix. -/
theorem mix_xorBlocks (rc rc' : Word) (x y : Block) :
    mix (rc ^^^ rc') (xorBlocks x y) = xorBlocks (mix rc x) (mix rc' y) := by
  rw [← mix_invMix (rc ^^^ rc') (xorBlocks (mix rc x) (mix rc' y)), invMix_xorBlocks, invMix_mix, invMix_mix]

/-- Settles O39: each part is the linearity of its primitive, with one constant or one block zero. -/
theorem mixIsAffine : Obligations.MixIsAffine := by
  intro pt k rc x y hpt plus zero
  change permute pt (xorBlocks x y) = xorBlocks _ _ ∧ invPermute pt (xorBlocks x y) = xorBlocks _ _ ∧
    mix 0 (xorBlocks x y) = xorBlocks _ _ ∧ invMix 0 (xorBlocks x y) = xorBlocks _ _ ∧
    mix rc x = xorBlocks _ _ ∧ invMix rc x = xorBlocks _ _ ∧ whiten k x = xorBlocks _ _
  refine ⟨permute_xorBlocks hpt x y, invPermute_xorBlocks pt x y, mix_xorBlocks 0 0 x y, invMix_xorBlocks 0 0 x y,
    ?_, ?_, ?_⟩
  · rw [← mix_xorBlocks, xorBlocks_zero]; simp
  · rw [← invMix_xorBlocks, xorBlocks_zero]; simp
  · rw [← whiten_xorBlocks, xorBlocks_zero]

/-! ### Mix as a running XOR -/

/-- Induction along the lanes, as the loop of R97 takes them. -/
theorem lane_induction {P : Lane → Prop} (zero : P 0)
    (succ : ∀ (i : Lane) (h : i.val + 1 < 16), P i → P ⟨i.val + 1, h⟩) : ∀ i, P i :=
  Fin.induction (n := 15) zero fun i => succ i.castSucc (Nat.succ_lt_succ i.isLt)

theorem take_lanes_succ (i : Lane) (h : i.val + 1 < 16) :
    (List.finRange 16).take (i.val + 1 + 1) = (List.finRange 16).take (i.val + 1) ++ [(⟨i.val + 1, h⟩ : Lane)] := by
  rw [List.take_add_one]
  simp [h]

/-- R97, closed form: the XOR of lanes 0 to `i` and of key bytes 0 to `i`. -/
theorem readLane_mix_eq_foldl (rc : Word) (st : Block) (i : Lane) :
    readLane (mix rc st) i =
      ((List.finRange 16).take (i.val + 1)).foldl (fun acc j => acc ^^^ (readLane st j ^^^ mixKeyByte rc j)) 0 := by
  obtain ⟨hzero, hsucc⟩ := mixUsesNewNeighbours rc st
  induction i using lane_induction with
  | zero => simp [hzero, List.finRange_succ]
  | succ i h ih =>
    rw [take_lanes_succ i h, List.foldl_append, ← ih, hsucc]
    exact BitVec.xor_comm _ _

/-! ### The pure chain has order 16 -/

/-- The map adds to each lane the lane `d` below it. -/
def AddsLaneBelow (d : Nat) (f : Block → Block) : Prop :=
  ∀ st i, readLane (f st) i = readLane st i ^^^ laneBelow st d i

theorem invMix_zero_addsLaneBelow : AddsLaneBelow 1 (invMix 0) := fun st i => by
  rw [readLane_invMix]
  simp [mixKeyByte_zero]

/-- Applied twice: the two lanes `d` below cancel, and the lane `2 d` below remains. -/
theorem AddsLaneBelow.twice {d : Nat} {f : Block → Block} (hf : AddsLaneBelow d f) :
    AddsLaneBelow (d + d) (f ∘ f) := by
  have hbelow : ∀ st i, laneBelow (f st) d i = laneBelow st d i ^^^ laneBelow st (d + d) i := by
    intro st i
    by_cases h : d ≤ i.val
    · simp only [laneBelow, if_pos h, hf _ _, Nat.le_sub_iff_add_le h, Nat.sub_sub]
    · simp [laneBelow, h, show ¬ d + d ≤ i.val by omega]
  intro st i
  rw [Function.comp_apply, hf, hf, hbelow, BitVec.xor_assoc, ← BitVec.xor_assoc (laneBelow st d i), BitVec.xor_self,
    BitVec.zero_xor]

theorem invMix_zero_iterate_addsLaneBelow (k : Nat) : AddsLaneBelow (2 ^ k) (invMix 0)^[2 ^ k] := by
  induction k with
  | zero => exact invMix_zero_addsLaneBelow
  | succ k ih =>
    rw [Nat.pow_succ, Nat.mul_two, Function.iterate_add]
    exact ih.twice

/-- R104 for InvMix: no lane has a lane 16 below it. -/
theorem invMix_zero_iterate_16 (x : Block) : (invMix 0)^[16] x = x :=
  block_ext fun i => by
    calc readLane ((invMix 0)^[2 ^ 4] x) i
      _ = readLane x i ^^^ laneBelow x (2 ^ 4) i := invMix_zero_iterate_addsLaneBelow 4 x i
      _ = readLane x i := by simp [laneBelow, lane_lt i]

/-- R104: sixteen pure chains undo sixteen inverse ones, which do nothing. -/
theorem mix_zero_iterate_16 (x : Block) : (mix 0)^[16] x = x := by
  have hundo : (mix 0)^[16] ((invMix 0)^[16] x) = x := Function.LeftInverse.iterate (mix_invMix 0) 16 x
  rwa [invMix_zero_iterate_16] at hundo

/-- Settles O40: the closed form by induction on the lanes, the order by doubling the inverse chain. -/
theorem mixIsARunningXor : Obligations.MixIsARunningXor := ⟨readLane_mix_eq_foldl, mix_zero_iterate_16⟩

end Sys2Proof.Machine
end

