-- ==== Sys2Proof/Proofs/BlockOps.lean ====
section
/-! PROOFS. The block commands (42_block_ops.md R110 to R117): what they answer and what they leave unchanged, that each
undoes the other, and their 50 primitive steps. What holds of both is proved once, of `blockCommand`. -/

namespace Sys2Proof.Machine

/-! ### The answer of a block command -/

/-- R110, R111: on a whole block, with a key, the answer is the transformed block. -/
theorem blockCommand_ok_eq (f : KeyMaterial → Block → Block) (b : Block) {s : State} (hv : s.keyValid = true)
    (ht : tablesInvertible s.km = true) :
    blockCommand f b.toList s =
      .next { s with outbox := s.outbox ++ [0x00 :: 0x10 :: 0x00 :: (f s.km b).toList] } := by
  rw [blockCommand_ok hv ht, respond_eq, responseFrame_block]

/-- Settles O22: the transform of ENCBLK is written out in the statement, and the two errors are those of every block
command. -/
theorem encblkEncryptsTheBlock : Obligations.EncblkEncryptsTheBlock :=
  ⟨fun _ b hv ht => blockCommand_ok_eq encryptBlock b hv ht, fun _ _ hl => blockCommand_badLength hl,
    fun _ _ hl hv => blockCommand_noKey hl hv⟩

/-- Settles O23 in the same way, for the transform of DECBLK. -/
theorem decblkDecryptsTheBlock : Obligations.DecblkDecryptsTheBlock :=
  ⟨fun _ b hv ht => blockCommand_ok_eq decryptBlock b hv ht, fun _ _ hl => blockCommand_badLength hl,
    fun _ _ hl hv => blockCommand_noKey hl hv⟩

/-- R113: an answered block command responds and does no more, and every state with the same key gives the same
response. -/
theorem blockCommand_response {f : KeyMaterial → Block → Block} {p : List Byte} {s t : State}
    (h : blockCommand f p s = .next t) :
    ∃ (e : Status) (q : List Byte), t = respond e q s ∧
      ∀ s' : State, s'.keyValid = s.keyValid → s'.km = s.km → blockCommand f p s' = .next (respond e q s') := by
  rcases blockCommand_cases f p s with ⟨hl, hx⟩ | ⟨hl, hv, hx⟩ | ⟨hv, ht, b, rfl, hx⟩ | ⟨-, -, -, hx⟩ <;>
    rw [hx] at h <;> cases h
  · exact ⟨_, _, rfl, fun s' _ _ => blockCommand_badLength hl⟩
  · exact ⟨_, _, rfl, fun s' hv' _ => blockCommand_noKey hl (hv'.trans hv)⟩
  · refine ⟨_, _, rfl, fun s' hv' hk' => ?_⟩
    rw [← hk'] at ht ⊢
    exact blockCommand_ok (hv'.trans hv) ht

/-- Settles O24, with the frame of the response. -/
theorem blockCommandsChangeNothing : Obligations.BlockCommandsChangeNothing := by
  intro i p s t hi hx
  rcases hi with rfl | rfl
  all_goals
    obtain ⟨e, q, ht, hsame⟩ := blockCommand_response hx
    exact ⟨responseFrame e q, ht, hsame⟩

/-! ### Each block command undoes the other -/

/-- R115, R116: when one transform undoes the other, so do their commands, in any state with the same key. -/
theorem blockCommand_undoes {f g : KeyMaterial → Block → Block}
    (hgf : ∀ {km : KeyMaterial}, tablesInvertible km = true → ∀ b : Block, g km (f km b) = b)
    {s : State} (hv : s.keyValid = true) (hs : s.KeyInvariant) (b : Block) :
    ∃ c : Block,
      blockCommand f b.toList s = .next { s with outbox := s.outbox ++ [0x00 :: 0x10 :: 0x00 :: c.toList] } ∧
      ∀ s' : State, s'.keyValid = true → s'.km = s.km →
        blockCommand g c.toList s' = .next { s' with outbox := s'.outbox ++ [0x00 :: 0x10 :: 0x00 :: b.toList] } := by
  obtain ⟨ht, -⟩ := hs hv
  refine ⟨f s.km b, blockCommand_ok_eq f b hv ht, fun s' hv' hk' => ?_⟩
  rw [blockCommand_ok_eq g _ hv' (hk' ▸ ht), hk', hgf ht]

/-- Settles O26: the round trip of the two transforms, by 16 rounds that undo 16 rounds. -/
theorem decblkUndoesEncblk : Obligations.DecblkUndoesEncblk := fun _ b hv hs =>
  blockCommand_undoes decryptBlock_encryptBlock hv hs b

/-- R116: for consistent tables each transform is the two-sided inverse of the other. -/
theorem encryptBlock_bijective {km : KeyMaterial} (h : tablesInvertible km = true) :
    Function.Bijective (encryptBlock km) :=
  Function.bijective_iff_has_inverse.mpr
    ⟨decryptBlock km, decryptBlock_encryptBlock h, encryptBlock_decryptBlock h⟩

/-- R116, the other one. -/
theorem decryptBlock_bijective {km : KeyMaterial} (h : tablesInvertible km = true) :
    Function.Bijective (decryptBlock km) :=
  Function.bijective_iff_has_inverse.mpr
    ⟨encryptBlock km, encryptBlock_decryptBlock h, decryptBlock_encryptBlock h⟩

/-- Settles O27: the other round trip, and the bijections that the two give. -/
theorem encblkUndoesDecblk : Obligations.EncblkUndoesDecblk :=
  ⟨fun _ c hv hs => blockCommand_undoes encryptBlock_decryptBlock hv hs c,
    fun _ ht => ⟨encryptBlock_bijective ht, decryptBlock_bijective ht⟩⟩

/-! ### The fifty steps -/

/-- R110, R117: a round of ENCBLK is three steps. -/
theorem encryptRound_eq_steps (km : KeyMaterial) (st : Block) (k : Round) :
    encryptRound km st k = [Primitive.substitute, .permute, .mix k].foldl (applyPrimitive km) st := by
  simp only [encryptRound, applyPrimitive, List.foldl_cons, List.foldl_nil]

/-- R111, R117: a round of DECBLK is three steps. -/
theorem decryptRound_eq_steps (km : KeyMaterial) (st : Block) (k : Round) :
    decryptRound km st k = [Primitive.invMix k, .invPermute, .invSubstitute].foldl (applyPrimitive km) st := by
  simp only [decryptRound, applyPrimitive, List.foldl_cons, List.foldl_nil]

/-- R117: a whitening, the steps of each round in turn, and a whitening, run as one list of steps. -/
theorem foldl_schedule (km : KeyMaterial) (first last : Primitive) (rounds : List Round)
    (steps : Round → List Primitive) (b : Block) :
    (first :: (rounds.flatMap steps ++ [last])).foldl (applyPrimitive km) b =
      applyPrimitive km (rounds.foldl (fun st k => (steps k).foldl (applyPrimitive km) st)
        (applyPrimitive km b first)) last := by
  rw [List.foldl_cons, List.foldl_append, List.foldl_flatMap, List.foldl_cons, List.foldl_nil]

/-- Settles O28: the step table written out is a whitening, 16 rounds of three steps, and a whitening. -/
theorem blockCommandsAreFiftySteps : Obligations.BlockCommandsAreFiftySteps := by
  intro km b
  constructor
  · rw [← List.foldl_map (f := encryptStep) (g := applyPrimitive km), encryptStep_schedule, foldl_schedule]
    simp only [← encryptRound_eq_steps, applyPrimitive, encryptBlock]
  · rw [← List.foldl_map (f := decryptStep) (g := applyPrimitive km), decryptStep_schedule, foldl_schedule]
    simp only [← decryptRound_eq_steps, applyPrimitive, decryptBlock]

end Sys2Proof.Machine
end

