-- ==== Sys2Proof/Proofs/Texts.lean ====
section
/-! PROOFS. Texts and hexadecimal in the host Codec (43_host_codec.md R135 to R137, R139). -/

namespace Sys2Proof.Machine

/-! ### Texts -/

/-- Settles O56: both directions go element by element, and a character is its code. -/
theorem textIsBytes : Obligations.TextIsBytes := by
  have hmk : Function.LeftInverse Character.mk Character.code := fun _ => rfl
  have hcode : Function.LeftInverse Character.code Character.mk := fun _ => rfl
  exact ⟨hmk.list_map, hcode.list_map, fun _ _ => List.getElem?_map⟩

/-! ### Writing hexadecimal -/

/-- R136: the two digits of a byte come before those of the bytes after it. -/
theorem bytesToHex_cons (b : Byte) (bs : List Byte) :
    bytesToHex (b :: bs) = hexDigit (b.toNat / 16) :: hexDigit (b.toNat % 16) :: bytesToHex bs := rfl

/-- R136: the digit of a value is the alphabet's entry at that value. -/
theorem hexDigit_code : ∀ v < 16, (hexDigit v).code =
    [0x30, 0x31, 0x32, 0x33, 0x34, 0x35, 0x36, 0x37, 0x38, 0x39, 0x41, 0x42, 0x43, 0x44, 0x45, 0x46].getD v 0 := by
  decide

/-- Settles O57: the high and the low four bits of a byte are values below 16, so their digits are the alphabet's. -/
theorem bytesToHexDigits : Obligations.BytesToHexDigits := by
  refine ⟨rfl, fun b bs => ?_⟩
  have hb : b.toNat < 256 := b.isLt
  rw [bytesToHex_cons, List.map_cons, List.map_cons, hexDigit_code _ (by omega), hexDigit_code _ (by omega)]

/-! ### Reading hexadecimal -/

/-- R137: the digits and their values, the letters in either case. -/
theorem hexValue_eq_some {c : Character} {v : Nat} : hexValue c = some v ↔
    (v < 10 ∧ c.code.toNat = 0x30 + v) ∨
    (10 ≤ v ∧ v < 16 ∧ (c.code.toNat = 0x41 + (v - 10) ∨ c.code.toNat = 0x61 + (v - 10))) := by
  simp only [hexValue]
  split_ifs
  case neg => simp only [false_iff]; omega
  all_goals rw [Option.some.injEq]; omega

/-- R137: a complete pair with a character that is no digit fails the whole text. -/
theorem hexToBytes_cons_error {a b : Character} (h : hexValue a = none ∨ hexValue b = none) (rest : Text) :
    hexToBytes (a :: b :: rest) = .error .hexParseError := by
  rcases h with h | h
  · simp only [hexToBytes, h]
  · cases ha : hexValue a <;> simp only [hexToBytes, ha, h]

/-- R137: a pair of digits is one byte in front of those of the rest. -/
theorem hexToBytes_cons_ok {a b : Character} {h l : Nat} (ha : hexValue a = some h) (hb : hexValue b = some l)
    {rest : Text} {bs : List Byte} (hr : hexToBytes rest = .ok bs) :
    hexToBytes (a :: b :: rest) = .ok (BitVec.ofNat 8 (16 * h + l) :: bs) := by
  simp only [hexToBytes, ha, hb, hr]

/-- R137: an error in the rest is the error of the whole text. -/
theorem hexToBytes_cons_rest_error {a b : Character} {h l : Nat} (ha : hexValue a = some h) (hb : hexValue b = some l)
    {rest : Text} {e : Status} (hr : hexToBytes rest = .error e) : hexToBytes (a :: b :: rest) = .error e := by
  simp only [hexToBytes, ha, hb, hr]

/-- R137: the character after the last complete pair is not looked at. -/
theorem hexToBytes_concat : ∀ {t : Text} (c : Character), t.length % 2 = 0 → hexToBytes (t ++ [c]) = hexToBytes t
  | [], _, _ => rfl
  | [_], _, h => absurd h (by simp)
  | a :: b :: rest, c, h => by
    have ih := hexToBytes_concat (t := rest) c ((Nat.add_mod_right _ 2).symm.trans h)
    simp only [List.cons_append, hexToBytes, ih]

/-- Settles O58: what a digit is, and what each kind of first pair does. -/
theorem hexToBytesPairs : Obligations.HexToBytesPairs :=
  ⟨fun _ _ => hexValue_eq_some, fun _ _ rest h => hexToBytes_cons_error h rest,
    fun _ _ _ _ _ ha hb => ⟨fun _ => hexToBytes_cons_ok ha hb, fun _ => hexToBytes_cons_rest_error ha hb⟩,
    fun _ c h => hexToBytes_concat c h, rfl⟩

/-- Settles O59, by the induction on the bytes that the assembler's lines rest on too. -/
theorem hexToBytesUndoesBytesToHex : Obligations.HexToBytesUndoesBytesToHex := hexToBytes_bytesToHex

end Sys2Proof.Machine
end

