-- ==== Sys2Proof/Proofs/Messages.lean ====
section
/-! PROOFS. Padding, `encrypt` and `decrypt` of the host Codec (43_host_codec.md R131 to R134, R138): one block command
sent by the host, a message as a list of blocks, and the round trip block by block. What holds of ENCBLK and DECBLK
alike is proved once, of a command `i` that is `blockCommand f` on a block. -/

namespace Sys2Proof.Machine

/-! ### Padding -/

/-- Settles O50: the pad fills the message up to the next multiple of 16. -/
theorem padInputAppendsThePad : Obligations.PadInputAppendsThePad := by
  intro m
  have hlen := padInput_length m
  exact ⟨_, rfl, by omega, by omega, rfl, by omega, by omega⟩

/-- R132: what removePadding does with a last byte `p`. -/
theorem removePadding_concat (d : List Byte) (p : Byte) :
    removePadding (d ++ [p]) =
      if p.toNat > 16 ∨ p.toNat > d.length + 1 then .error .invalidPadding
      else .ok ((d ++ [p]).take (d.length + 1 - p.toNat)) := by
  simp only [removePadding, List.getLast?_concat, List.length_append, List.length_singleton]

/-- Settles O51: the two sides of the check on the last byte. -/
theorem removePaddingReadsTheLastByte : Obligations.RemovePaddingReadsTheLastByte := by
  refine ⟨rfl, fun d p => ⟨fun hbad => ?_, fun h16 hlen => ?_⟩⟩
  · rw [removePadding_concat, if_pos hbad]
  · rw [removePadding_concat, if_neg (by omega)]

/-- R131, R132: a pad of `n` bytes of value `n` is removed whole, for every `n` that the check lets pass. -/
theorem removePadding_append_pad (m : List Byte) {n : Nat} (h1 : 1 ≤ n) (h16 : n ≤ 16) :
    removePadding (m ++ List.replicate n (BitVec.ofNat 8 n)) = .ok m := by
  obtain ⟨k, rfl⟩ := Nat.exists_eq_add_of_le' h1
  have hp : (BitVec.ofNat 8 (k + 1)).toNat = k + 1 := Nat.mod_eq_of_lt (by omega)
  rw [List.replicate_succ', ← List.append_assoc, removePadding_concat, hp, List.length_append, List.length_replicate,
    if_neg (by omega), List.append_assoc, Nat.add_assoc, Nat.add_sub_cancel, List.take_left]

/-- Settles O52: the pad has 1 to 16 bytes. -/
theorem removePaddingUndoesPadInput : Obligations.RemovePaddingUndoesPadInput := by
  intro m
  obtain ⟨n, -, h1, h16, hpad, -⟩ := padInputAppendsThePad m
  rw [hpad, removePadding_append_pad m h1 h16]

/-! ### One command of the host -/

/-- R55, R112: a block command that the host sends to a core with a key gives it the transformed block. -/
theorem issue_block_ok {i : Instr} {f : KeyMaterial → Block → Block} {b : Block} {s : State}
    (hw : i.wellFormed = true) (hx : exec i s = blockCommand f b.toList s) (hv : s.keyValid = true)
    (ht : tablesInvertible s.km = true) :
    issue i s = .next (.ok (f s.km b).toList, respond .ok (f s.km b).toList s) :=
  issue_of_exec (decodeFrame_encode hw) (by rw [Vector.length_toList]; decide) (by decide) rfl
    (hx.trans (blockCommand_ok hv ht))

/-- R154: without a key the host reads `KeyNotLoaded`. -/
theorem issue_block_noKey {i : Instr} {f : KeyMaterial → Block → Block} {b : Block} {s : State}
    (hw : i.wellFormed = true) (hx : exec i s = blockCommand f b.toList s) (hv : s.keyValid = false) :
    issue i s = .next (.error .keyNotLoaded, respond .keyNotLoaded [] s) :=
  issue_of_exec (decodeFrame_encode hw) (Nat.zero_le _) (by decide) rfl
    (hx.trans (blockCommand_noKey b.length_toList hv))

/-- R140: a whole key is installed and answered with an empty `OK`. -/
theorem hostSetKey_ok (key : KeyTable) (s : State) :
    hostSetKey key.toList s = .next (.ok [], respond .ok [] (setKeyValid (installKey (ks key) s))) := by
  rw [hostSetKey, if_pos (by rw [Vector.length_toList]; decide)]
  exact issue_of_exec (u := setKeyValid (installKey (ks key) s)) (e := .ok) (p := [])
    (decodeFrame_encode (setkey_wellFormed key)) (Nat.zero_le _) (by decide) rfl (execSetkey_ok key s)

/-- R141: the first command that fails ends the sequence, and nothing is returned. -/
theorem issueAll_cons_error {i : Instr} {is : List Instr} {s t : State} {e : Status}
    (h : issue i s = .next (.error e, t)) : issueAll (i :: is) s = .next (.error e, t) := by
  simp only [issueAll, h]

/-! ### Messages as lists of blocks -/

/-- R133: the bytes of a list of blocks, in order. -/
def joinBlocks (bs : List Block) : List Byte := (bs.map Vector.toList).flatten

theorem joinBlocks_length (bs : List Block) : (joinBlocks bs).length = 16 * bs.length := by
  induction bs with
  | nil => rfl
  | cons b bs ih =>
    have hb : b.toList.length = 16 := b.length_toList
    rw [joinBlocks, List.map_cons, List.flatten_cons, List.length_append, ← joinBlocks, ih, hb, List.length_cons,
      Nat.mul_succ, Nat.add_comm]

/-- Mapping each block and joining the results. -/
theorem joinBlocks_map (f : Block → Block) (bs : List Block) :
    joinBlocks (bs.map f) = (bs.map fun b => (f b).toList).flatten := by
  rw [joinBlocks, List.map_map]; rfl

/-- R60, R131: the padded message is at least one block, and ENCRYPT is one ENCBLK for each. -/
theorem exists_encryptCommands (m : List Byte) :
    ∃ bs : List Block, bs.length = m.length / 16 + 1 ∧ padInput m = joinBlocks bs ∧
      encryptCommands m = bs.map fun b => .encblk b.toList := by
  have hlen := padInput_length m
  obtain ⟨bs, hbs, hsplit, hjoin⟩ := exists_blocks _ _ hlen
  refine ⟨bs, hbs, hjoin, ?_⟩
  rw [encryptCommands, hlen, Nat.mul_div_cancel_left _ (by decide), hsplit, List.map_map]; rfl

/-- R60: DECRYPT of a list of blocks is one DECBLK for each. -/
theorem decryptCommands_joinBlocks (bs : List Block) :
    decryptCommands (joinBlocks bs) = bs.map fun b => .decblk b.toList := by
  have hsplit : splitBlocks bs.length (joinBlocks bs) = bs.map Vector.toList := by
    rw [joinBlocks, ← List.length_map (as := bs) Vector.toList]
    exact splitBlocks_flatten _ (List.forall_mem_map.mpr fun b _ => b.length_toList)
  rw [decryptCommands, joinBlocks_length, Nat.mul_div_cancel_left _ (by decide), hsplit, List.map_map]; rfl

/-! ### `encrypt` and `decrypt` -/

/-- R133: with a key, encrypt has each block of the padded message encrypted on its own, and the key state stays. -/
theorem hostEncrypt_ok {s : State} (m : List Byte) (hv : s.keyValid = true) (ht : tablesInvertible s.km = true) :
    ∃ (bs : List Block) (t : State), bs.length = m.length / 16 + 1 ∧ padInput m = joinBlocks bs ∧
      hostEncrypt m s = .next (.ok (joinBlocks (bs.map (encryptBlock s.km))), t) ∧
      t.km = s.km ∧ t.keyValid = true := by
  obtain ⟨bs, hlen, hpad, hcommands⟩ := exists_encryptCommands m
  obtain ⟨t, hissue, hkey⟩ := issueAll_map (c := fun b => .encblk b.toList)
    (fun s b hv ht => issue_block_ok (encblk_wellFormed b) (exec_encblk _ s) hv ht) bs s hv ht
  exact ⟨bs, t, hlen, hpad, by rw [hostEncrypt, hcommands, hissue, joinBlocks_map], hkey⟩

/-- R134: with whole blocks, decrypt issues one DECBLK for each, and removes the padding from what they give. -/
theorem hostDecrypt_of_issueAll_ok {bs : List Block} {out : List Byte} {s t : State}
    (h : issueAll (bs.map fun b => .decblk b.toList) s = .next (.ok out, t)) :
    hostDecrypt (joinBlocks bs) s = .next (removePadding out, t) := by
  rw [hostDecrypt, joinBlocks_length, if_neg (by simp), decryptCommands_joinBlocks, h]

/-- R134, R141: or it ends with the error that ended them. -/
theorem hostDecrypt_of_issueAll_error {bs : List Block} {e : Status} {s t : State}
    (h : issueAll (bs.map fun b => .decblk b.toList) s = .next (.error e, t)) :
    hostDecrypt (joinBlocks bs) s = .next (.error e, t) := by
  rw [hostDecrypt, joinBlocks_length, if_neg (by simp), decryptCommands_joinBlocks, h]

/-- R134: with a key, decrypt has each block decrypted on its own, and the key state stays. -/
theorem hostDecrypt_ok {s : State} (bs : List Block) (hv : s.keyValid = true) (ht : tablesInvertible s.km = true) :
    ∃ t : State, hostDecrypt (joinBlocks bs) s = .next (removePadding (joinBlocks (bs.map (decryptBlock s.km))), t) ∧
      t.km = s.km ∧ t.keyValid = true := by
  obtain ⟨t, hissue, hkey⟩ := issueAll_map (c := fun b => .decblk b.toList)
    (fun s b hv ht => issue_block_ok (decblk_wellFormed b) (exec_decblk _ s) hv ht) bs s hv ht
  exact ⟨t, by rw [hostDecrypt_of_issueAll_ok hissue, joinBlocks_map], hkey⟩

/-- Settles O53: the padded message is at least one block, so without a key the first ENCBLK fails. -/
theorem encryptIsBlockwise : Obligations.EncryptIsBlockwise := by
  constructor
  · intro s m hv ht
    obtain ⟨bs, t, hlen, hpad, henc, hk, hvt⟩ := hostEncrypt_ok m hv ht
    rw [joinBlocks_map] at henc
    refine ⟨bs, t, hpad, henc, hk, hvt, ?_⟩
    rw [← joinBlocks_map, joinBlocks_length, List.length_map, hlen]
    omega
  · intro s m hv
    obtain ⟨bs, hlen, -, hcommands⟩ := exists_encryptCommands m
    obtain ⟨b, bs, rfl⟩ := List.exists_cons_of_length_eq_add_one hlen
    have hfirst := issue_block_noKey (encblk_wellFormed b) (exec_encblk _ s) hv
    refine ⟨respond .keyNotLoaded [] s, ?_, rfl, hv⟩
    rw [hostEncrypt, hcommands, List.map_cons, issueAll_cons_error hfirst]

/-- Settles O54: the size check, the blocks, and the first DECBLK without a key. -/
theorem decryptIsBlockwise : Obligations.DecryptIsBlockwise := by
  refine ⟨fun s c hsize => ?_, fun s bs hv ht => ?_, fun s b bs hv => ?_⟩
  · rw [hostDecrypt, if_pos hsize]
  · obtain ⟨t, hdec, hkey⟩ := hostDecrypt_ok bs hv ht
    exact ⟨t, joinBlocks_map (decryptBlock s.km) bs ▸ hdec, hkey⟩
  · have hfirst := issue_block_noKey (decblk_wellFormed b) (exec_decblk _ s) hv
    exact ⟨_, hostDecrypt_of_issueAll_error (bs := b :: bs) (issueAll_cons_error hfirst), rfl, hv⟩

/-- R138: with a key, what encrypt returns decrypts to the message: each block goes there and back, and then the padding
comes off. -/
theorem hostDecrypt_hostEncrypt {s : State} (m : List Byte) (hv : s.keyValid = true)
    (ht : tablesInvertible s.km = true) :
    ∃ (c : List Byte) (t u : State), hostEncrypt m s = .next (.ok c, t) ∧ hostDecrypt c t = .next (.ok m, u) := by
  obtain ⟨bs, t, -, hpad, henc, hk, hvt⟩ := hostEncrypt_ok m hv ht
  obtain ⟨u, hdec, -⟩ := hostDecrypt_ok (bs.map (encryptBlock s.km)) hvt (hk ▸ ht)
  have hblocks : (bs.map (encryptBlock s.km)).map (decryptBlock s.km) = bs :=
    Function.LeftInverse.list_map (decryptBlock_encryptBlock ht) bs
  rw [hk, hblocks, ← hpad, removePaddingUndoesPadInput] at hdec
  exact ⟨_, t, u, henc, hdec⟩

/-- Settles O55: the installed key has consistent tables by the invariant, and one that the host installs by `KS`. -/
theorem decryptUndoesEncrypt : Obligations.DecryptUndoesEncrypt := by
  constructor
  · intro s m hv hs
    obtain ⟨ht, -⟩ := hs hv
    exact hostDecrypt_hostEncrypt m hv ht
  · intro s key m
    obtain ⟨c, u, v, henc, hdec⟩ :=
      hostDecrypt_hostEncrypt (s := respond .ok [] (setKeyValid (installKey (ks key) s))) m rfl (ks_invertible key)
    exact ⟨c, _, u, v, hostSetKey_ok key s, henc, hdec⟩

end Sys2Proof.Machine
end

