-- ==== Sys2Proof/Proofs/Exceptions.lean ====
section
/-! PROOFS. The errors of the core (60_exceptions.md R151 to R158): the status that the checks of a command give it, that
the core answers with that status, and that an error changes nothing but the response channel. -/

namespace Sys2Proof.Machine

/-! ### The status that the checks give -/

/-- R157: the checks of a command in order, first the opcode, then the length, then `KEYVALID`. -/
def checkedStatus (opc : Byte) (p : List Byte) (keyValid : Bool) : Status :=
  if opc ≠ 0x01 ∧ opc ≠ 0x02 ∧ opc ≠ 0x03 then .illegalCommand
  else if opc = 0x01 then (if p.length ≠ 32 then .invalidKeySize else .ok)
  else if p.length ≠ 16 then .invalidBlockSize
  else if keyValid = false then .keyNotLoaded
  else .ok

theorem checkedStatus_illegal {opc : Byte} (h : opc ≠ 0x01 ∧ opc ≠ 0x02 ∧ opc ≠ 0x03) (p : List Byte) (v : Bool) :
    checkedStatus opc p v = .illegalCommand := if_pos h

theorem checkedStatus_setkey (p : List Byte) (v : Bool) :
    checkedStatus 0x01 p v = if p.length ≠ 32 then .invalidKeySize else .ok := rfl

theorem checkedStatus_block {opc : Byte} (h : opc = 0x02 ∨ opc = 0x03) (p : List Byte) (v : Bool) :
    checkedStatus opc p v =
      if p.length ≠ 16 then .invalidBlockSize else if v = false then .keyNotLoaded else .ok := by
  rcases h with rfl | rfl <;> rfl

/-- R57, R58: an opcode byte is SETKEY's, a block command's, or illegal. -/
theorem opcode_cases (opc : Byte) :
    opc = 0x01 ∨ (opc = 0x02 ∨ opc = 0x03) ∨ (opc ≠ 0x01 ∧ opc ≠ 0x02 ∧ opc ≠ 0x03) := by
  by_cases h1 : opc = 0x01
  · exact .inl h1
  · by_cases h23 : opc = 0x02 ∨ opc = 0x03
    · exact .inr (.inl h23)
    · exact .inr (.inr ⟨h1, not_or.mp h23⟩)

/-- R152 to R155: the cause of each error. -/
theorem checkedStatus_error_iff (opc : Byte) (p : List Byte) (v : Bool) :
    (checkedStatus opc p v = .invalidKeySize ↔ opc = 0x01 ∧ p.length ≠ 32) ∧
    (checkedStatus opc p v = .invalidBlockSize ↔ (opc = 0x02 ∨ opc = 0x03) ∧ p.length ≠ 16) ∧
    (checkedStatus opc p v = .keyNotLoaded ↔ (opc = 0x02 ∨ opc = 0x03) ∧ p.length = 16 ∧ v = false) ∧
    (checkedStatus opc p v = .illegalCommand ↔ opc ≠ 0x01 ∧ opc ≠ 0x02 ∧ opc ≠ 0x03) := by
  rcases opcode_cases opc with rfl | hblock | hillegal
  · rw [checkedStatus_setkey]
    split_ifs with hl <;> simp [hl]
  · rw [checkedStatus_block hblock]
    rcases hblock with rfl | rfl
    all_goals split_ifs with hl hv <;> simp_all
  · rw [checkedStatus_illegal hillegal]
    simp_all

/-- R151, R157: the code of the status. -/
theorem statusCode_checkedStatus (opc : Byte) (p : List Byte) (v : Bool) :
    statusCode (checkedStatus opc p v) =
      if opc ≠ 0x01 ∧ opc ≠ 0x02 ∧ opc ≠ 0x03 then 0x08
      else if opc = 0x01 then (if p.length ≠ 32 then 0x01 else 0x00)
      else if p.length ≠ 16 then 0x02
      else if v = false then 0x07
      else 0x00 := by
  unfold checkedStatus
  split_ifs <;> rfl

/-- R151: the host-side kinds are never the result of a check. -/
theorem checkedStatus_mem_coreStatuses (opc : Byte) (p : List Byte) (v : Bool) :
    checkedStatus opc p v ∈ coreStatuses := by
  unfold checkedStatus
  split_ifs <;> decide

/-! ### An answer with a status -/

/-- R53, R158: `t` is `s` after an answer with status `e`. An error adds its empty response and changes nothing else; a
success adds an `OK` response. -/
def AnswersWith (e : Status) (s t : State) : Prop :=
  (e ≠ .ok ∧ t = respond e [] s) ∨ (e = .ok ∧ ∃ q, t.outbox = s.outbox ++ [responseFrame .ok q])

theorem answersWith_error {e : Status} (he : e ≠ .ok) (s : State) : AnswersWith e s (respond e [] s) := .inl ⟨he, rfl⟩

/-- R53: the first byte of an answer is the code of its status. -/
theorem AnswersWith.outbox {e : Status} {s t : State} (h : AnswersWith e s t) :
    ∃ body, t.outbox = s.outbox ++ [statusCode e :: body] := by
  rcases h with ⟨-, rfl⟩ | ⟨rfl, q, hq⟩
  · exact ⟨_, rfl⟩
  · exact ⟨_, hq⟩

/-- The code that is seen on the response channel is the one of the status. -/
theorem AnswersWith.statusCode_eq {e : Status} {s t : State} (h : AnswersWith e s t) {code : Byte} {body : List Byte}
    (hout : t.outbox = s.outbox ++ [code :: body]) : statusCode e = code := by
  obtain ⟨body', hout'⟩ := h.outbox
  have hframe : [statusCode e :: body'] = [code :: body] := List.append_cancel_left (hout'.symm.trans hout)
  injection (List.singleton_inj.mp hframe)

/-- R158: where a nonzero code is answered, the response is all that changed. -/
theorem AnswersWith.eq_of_error {e : Status} {s t : State} (h : AnswersWith e s t) {code : Byte} (hcode : code ≠ 0x00)
    (hout : t.outbox = s.outbox ++ [[code, 0x00, 0x00]]) :
    t = { s with outbox := s.outbox ++ [[code, 0x00, 0x00]] } := by
  obtain rfl := h.statusCode_eq hout
  rcases h with ⟨-, rfl⟩ | ⟨rfl, -⟩
  · rfl
  · exact absurd rfl hcode

/-- An error frame is seen exactly where its error is the status. -/
theorem AnswersWith.outbox_error_iff {e : Status} {s t : State} (h : AnswersWith e s t) {d : Status} (hd : d ≠ .ok) :
    t.outbox = s.outbox ++ [[statusCode d, 0x00, 0x00]] ↔ e = d := by
  constructor
  · intro hout
    exact statusCode_injective (h.statusCode_eq hout)
  · rintro rfl
    rcases h with ⟨-, rfl⟩ | ⟨hok, -⟩
    · rfl
    · exact absurd hok hd

/-! ### The core answers with the status of its checks -/

theorem execSetkey_answersWith {p : List Byte} {s t : State} (h : execSetkey p s = .next t) :
    AnswersWith (checkedStatus 0x01 p s.keyValid) s t := by
  rw [checkedStatus_setkey]
  rcases execSetkey_cases p s with ⟨hl, hx⟩ | ⟨key, rfl, hx⟩ <;> rw [hx] at h <;> cases h
  · rw [if_pos hl]; exact answersWith_error (by decide) s
  · rw [if_neg (not_not.mpr key.length_toList)]; exact .inr ⟨rfl, _, rfl⟩

theorem blockCommand_answersWith {f : KeyMaterial → Block → Block} {opc : Byte} (hopc : opc = 0x02 ∨ opc = 0x03)
    {p : List Byte} {s t : State} (h : blockCommand f p s = .next t) :
    AnswersWith (checkedStatus opc p s.keyValid) s t := by
  rw [checkedStatus_block hopc]
  rcases blockCommand_cases f p s with ⟨hl, hx⟩ | ⟨hl, hv, hx⟩ | ⟨hv, -, b, rfl, hx⟩ | ⟨-, -, -, hx⟩ <;>
    rw [hx] at h <;> cases h
  · rw [if_pos hl]; exact answersWith_error (by decide) s
  · rw [if_neg (not_not.mpr hl), if_pos hv]; exact answersWith_error (by decide) s
  · rw [if_neg (not_not.mpr b.length_toList), if_neg (by simp [hv])]; exact .inr ⟨rfl, _, rfl⟩

theorem exec_answersWith {i : Instr} {s t : State} (h : exec i s = .next t) :
    AnswersWith (checkedStatus i.opcode i.payload s.keyValid) s t := by
  cases i with
  | setkey p => exact execSetkey_answersWith h
  | encblk p => exact blockCommand_answersWith (.inl rfl) h
  | decblk p => exact blockCommand_answersWith (.inr rfl) h

/-- R157: a frame that is answered is answered with the status of its checks. -/
theorem step_answersWith {s t : State} {opc lo hi : Byte} {p : List Byte} {rest : List HostEvent}
    (hin : s.inbox = .command (opc :: lo :: hi :: p) :: rest) (h : step s = .next t) :
    AnswersWith (checkedStatus opc p s.keyValid) { s with inbox := rest } t := by
  rw [step_frame hin] at h
  cases hd : decodeFrame (opc :: lo :: hi :: p) with
  | command i =>
    obtain ⟨rfl, rfl⟩ := decodeFrame_command_inv hd
    rw [acceptFrame_command hd] at h
    exact exec_answersWith (s := { s with inbox := rest }) h
  | illegal o q =>
    rw [acceptFrame_illegal hd] at h; cases h
    rw [checkedStatus_illegal (decodeFrame_illegal_inv hd)]
    exact answersWith_error (by decide) _
  | malformed why => rw [acceptFrame_malformed hd] at h; cases h

/-- R54: only a frame with a whole header is answered. -/
theorem frame_of_step_next {s t : State} {f : Frame} {rest : List HostEvent} (hin : s.inbox = .command f :: rest)
    (h : step s = .next t) : ∃ opc lo hi p, f = opc :: lo :: hi :: p := by
  rcases decodeFrame_cases f with ⟨opc, lo, hi, p, hf, -⟩ | ⟨why, hd⟩
  · exact ⟨opc, lo, hi, p, hf⟩
  · rw [step_frame hin, acceptFrame_malformed hd] at h; cases h

/-! ### The obligations -/

/-- Settles O11: the length bytes read back the length, and an answer has the status of its checks. -/
theorem statusCodesAndLayout : Obligations.StatusCodesAndLayout := by
  refine ⟨by decide, fun e p hp => ⟨_, _, rfl, lenField_len hp⟩, fun s t f rest hin h => ?_⟩
  obtain ⟨opc, lo, hi, p, rfl⟩ := frame_of_step_next hin h
  obtain ⟨body, hout⟩ := (step_answersWith hin h).outbox
  exact ⟨_, body, hout, List.mem_map_of_mem (f := statusCode) (checkedStatus_mem_coreStatuses opc p s.keyValid)⟩

/-- Settles O12: an error frame is seen exactly where its error is the status of the checks. -/
theorem errorsAreRaisedExactlyWhere : Obligations.ErrorsAreRaisedExactlyWhere := by
  intro s t opc lo hi p rest hin h
  have hans := step_answersWith hin h
  obtain ⟨hkeySize, hblockSize, hnoKey, hillegal⟩ := checkedStatus_error_iff opc p s.keyValid
  exact ⟨(hans.outbox_error_iff (d := .invalidKeySize) (by decide)).trans hkeySize,
    (hans.outbox_error_iff (d := .invalidBlockSize) (by decide)).trans hblockSize,
    (hans.outbox_error_iff (d := .keyNotLoaded) (by decide)).trans hnoKey,
    (hans.outbox_error_iff (d := .illegalCommand) (by decide)).trans hillegal,
    fun _ hcode hout => hans.eq_of_error hcode hout⟩

/-- Settles O13: a whole frame is answered, and the statement's code is the one of the checks' status. -/
theorem checksHaveAFixedOrder : Obligations.ChecksHaveAFixedOrder := by
  intro s opc lo hi p rest hs hl hin
  have hwhole : ∀ why, decodeFrame (opc :: lo :: hi :: p) ≠ .malformed why := fun why hd =>
    decodeFrame_malformed_iff.mp ⟨why, hd⟩ opc lo hi p rfl hl
  obtain ⟨t, -, hx, -⟩ := acceptFrame_answers (s := { s with inbox := rest }) hs hwhole
  have hstep : step s = .next t := (step_frame hin).trans hx
  obtain ⟨body, hout⟩ := (step_answersWith hin hstep).outbox
  exact ⟨t, _, body, hstep, hout, statusCode_checkedStatus opc p s.keyValid⟩

/-- Settles O14: a failed command adds its response and no more, and what a command answers does not depend on the
responses before it. -/
theorem errorsLeaveNothingBehind : Obligations.ErrorsLeaveNothingBehind := by
  intro s t i code hcode h hout
  obtain rfl := (exec_answersWith h).eq_of_error hcode hout
  refine ⟨rfl, fun j u hu => ?_⟩
  obtain ⟨r, hr, hsame⟩ := exec_respects hu
  exact ⟨r, hr, hsame _ rfl rfl rfl rfl⟩

end Sys2Proof.Machine
end

