-- ==== Sys2Proof/Proofs/SafeSteps.lean ====
section
/-! PROOFS. A step for each thing that can reach the core from outside, and that a host that keeps its duties is always
answered (70_reset_and_hazards.md R180, R181, R186, R191, R192). -/

namespace Sys2Proof.Machine

/-! ### One step for each event -/

/-- Settles O7: the core waits. -/
theorem coreWaitsForACommand : Obligations.CoreWaitsForACommand := fun _ => step_idle

/-- Settles O15: an overlapped event has no other step. -/
theorem overlappedCommandsFault : Obligations.OverlappedCommandsFault := fun _ _ _ _ => step_overlapped

/-- Settles O48: the step is the reset of the core with the event taken off the channel. -/
theorem resetEventClearsTheKey : Obligations.ResetEventClearsTheKey := fun s rest hin =>
  ⟨resetCore { s with inbox := rest }, step_reset hin, resetCore_keyValid _, resetCore_outbox _, resetCore_inbox _⟩

/-! ### Safe states -/

/-- R54, R55, R181: the step of a core that has something to do takes the first event. -/
theorem step_event {s : State} {e : HostEvent} {rest : List HostEvent} (h : s.inbox = e :: rest) :
    step s = acceptEvent e { s with inbox := rest } := by
  simp only [step, acceptNext, h]

/-- R18, R180: a reset leaves no key, so nothing is asked of the tables. -/
theorem resetCore_keyInvariant (s : State) : (resetCore s).KeyInvariant :=
  fun h => absurd ((resetCore_keyValid s).symm.trans h) Bool.false_ne_true

/-- R186, R191: from consistent tables an event of a host that keeps its duties is answered, which leaves the events to
come alone and the tables consistent. -/
theorem acceptEvent_answers {e : HostEvent} {s : State} (hs : s.KeyInvariant) (he : e.Dutiful) :
    ∃ t, acceptEvent e s = .next t ∧ t.inbox = s.inbox ∧ t.KeyInvariant := by
  cases e with
  | command f =>
    obtain ⟨t, -, hx, hin, ht, -⟩ := acceptFrame_answers hs he
    exact ⟨t, hx, hin, ht⟩
  | reset => exact ⟨resetCore s, rfl, resetCore_inbox s, resetCore_keyInvariant s⟩
  | overlapped f g => exact he.elim

/-- Settles O44: with nothing to do the core waits in the same state; else the first event keeps the host's duties and is
answered, and the events after it are those still to come. -/
theorem safeStatesAreAnswered : Obligations.SafeStatesAreAnswered := by
  rintro s ⟨hs, hduties⟩
  cases hin : s.inbox with
  | nil => exact ⟨s, step_idle hin, hs, hduties⟩
  | cons e rest =>
    rw [hin] at hduties
    obtain ⟨he, hrest⟩ := List.forall_mem_cons.mp hduties
    obtain ⟨t, hx, htin, ht⟩ := acceptEvent_answers (s := { s with inbox := rest }) hs he
    exact ⟨t, (step_event hin).trans hx, ht, htin ▸ hrest⟩

end Sys2Proof.Machine
end
